-- ==== Sys2Proof/Word.lean ====
section
/-! DEFINITION. The bit-vector types of the block: bytes of the memories and of the compressed
stream, and 32-bit register words (R7, R11). -/

namespace Sys2Proof

/-- A byte, value 0 to 255 (R7). -/
abbrev Byte := BitVec 8

/-- A 32-bit register word (R11). -/
abbrev Word := BitVec 32

end Sys2Proof
end

