-- ==== Sys2Proof/Syntax.lean ====
section
/-! DEFINITION. The instructions: one constructor per row of the opcode table, and the two forms
their encodings take. -/

namespace Sys2Proof

/-- The rows of the opcode table. The first five are values written to CMD (format CMDW, R60, R61,
R71); the last three are groups of the compressed stream (format CTRL, R66, R67), each with its
payload as operand (log 6). -/
inductive Instr where
  /-- NOP (R131). -/
  | nop
  /-- RASTERIZE (R80). -/
  | rasterize
  /-- COMPRESS (R100). -/
  | compress
  /-- RESET (R132). -/
  | reset
  /-- Every other command word (R71), with the fields OP and ZERO of R60. -/
  | illegalCommand (op : BitVec 8) (zero : BitVec 24)
  /-- LITERAL (R67): control byte `payload.length - 1`, then the payload. -/
  | literal (payload : List Byte)
  /-- The reserved control byte 128 (R69). -/
  | reserved80
  /-- REPEAT (R67): control byte `128 + n` with n not 0, then the repeated value. -/
  | repeatRun (n : BitVec 7) (value : Byte)
deriving DecidableEq, Repr

/-- The encoding of an instruction: the word written to CMD, or the bytes of a group in the stream. -/
inductive Code where
  | cmdw (w : Word)
  | ctrl (bytes : List Byte)
deriving DecidableEq, Repr

end Sys2Proof
end

