-- ==== Sys2Proof/WellFormed.lean ====
section
/-! DEFINITION. When an instruction's operands are those of some encoding. -/

namespace Sys2Proof

/-- The words of the illegal_command row: not one of the four defined commands (R71). -/
abbrev Instr.IllegalFields (op : BitVec 8) (zero : BitVec 24) : Prop :=
  zero ≠ 0 ∨ (3 ≤ op.toNat ∧ op.toNat ≤ 254)

/-- A LITERAL group carries 1 to 128 payload bytes (R67). -/
abbrev Instr.LiteralLength (payload : List Byte) : Prop :=
  1 ≤ payload.length ∧ payload.length ≤ 128

/-- The count field of REPEAT is not 0: that byte is RESERVED_80 (R67). -/
abbrev Instr.RepeatField (n : BitVec 7) : Prop := n ≠ 0

/-- The well-formed instructions. -/
def Instr.WellFormed : Instr → Bool
  | .nop => true
  | .rasterize => true
  | .compress => true
  | .reset => true
  | .illegalCommand op zero => decide (Instr.IllegalFields op zero)
  | .literal payload => decide (Instr.LiteralLength payload)
  | .reserved80 => true
  | .repeatRun n _ => decide (Instr.RepeatField n)

/-- The commands, which a write to CMD performs (R61, R71); the others are groups of the compressed
stream (R66). -/
def Instr.isCommand : Instr → Bool
  | .nop => true
  | .rasterize => true
  | .compress => true
  | .reset => true
  | .illegalCommand _ _ => true
  | .literal _ => false
  | .reserved80 => false
  | .repeatRun _ _ => false

end Sys2Proof
end

