-- ==== Sys2Proof/Decode.lean ====
section
/-! DEFINITION. Decoding command words and stream groups, and encoding them. -/

namespace Sys2Proof

/-- Why bytes are no group (R117). -/
inductive DecodeError where
  /-- No byte is left: there is no next control byte. -/
  | endOfStream
  /-- The stream ends inside a group (R117, U15). -/
  | truncated
  /-- A control byte 128 given to the reference function DECODE (R69, U2). -/
  | reserved
deriving DecidableEq, Repr

/-- Field OP = bits [7:0] of a command word (R60). -/
def cmdOp (w : Word) : BitVec 8 := w.extractLsb' 0 8

/-- Field ZERO = bits [31:8] of a command word (R60). -/
def cmdZero (w : Word) : BitVec 24 := w.extractLsb' 8 24

/-- The command a word written to CMD is (R61, R71, R130). Every word is a command or illegal (R72). -/
def decodeCmd (w : Word) : Instr :=
  if cmdZero w ≠ 0 then .illegalCommand (cmdOp w) (cmdZero w)
  else if cmdOp w = 0x00 then .nop
  else if cmdOp w = 0x01 then .rasterize
  else if cmdOp w = 0x02 then .compress
  else if cmdOp w = 0xFF then .reset
  else .illegalCommand (cmdOp w) (cmdZero w)

/-- How many payload bytes follow a control byte (R67, R68); none is defined for 128. -/
def payloadLength (c : Byte) : Nat :=
  if c.toNat ≤ 127 then c.toNat + 1 else if c.toNat = 128 then 0 else 1

/-- The group at the head of a stream and the bytes after it (R66, R67, R68). -/
def decodeGroup : List Byte → Except DecodeError (Instr × List Byte)
  | [] => .error .endOfStream
  | c :: rest =>
    if c.toNat ≤ 127 then
      if rest.length < c.toNat + 1 then .error .truncated
      else .ok (.literal (rest.take (c.toNat + 1)), rest.drop (c.toNat + 1))
    else if c.toNat = 128 then .ok (.reserved80, rest)
    else
      match rest with
      | [] => .error .truncated
      | v :: rest' => .ok (.repeatRun (c.extractLsb' 0 7) v, rest')

/-- Decoding, total on any word and any bytes: the instruction and what follows it. -/
def decode : Code → Except DecodeError (Instr × List Byte)
  | .cmdw w => .ok (decodeCmd w, [])
  | .ctrl bytes => decodeGroup bytes

/-- The control byte of a LITERAL group (R67): `c = L - 1`. -/
def literalControl (payload : List Byte) : Byte := BitVec.ofNat 8 (payload.length - 1)

/-- The control byte of a REPEAT group (R67): bit 7 set, the count field in the low 7 bits. -/
def repeatControl (n : BitVec 7) : Byte := 1#1 ++ n

/-- The encoding of an instruction (R60, R61, R67). -/
def encode : Instr → Code
  | .nop => .cmdw 0x00000000#32
  | .rasterize => .cmdw 0x00000001#32
  | .compress => .cmdw 0x00000002#32
  | .reset => .cmdw 0x000000FF#32
  | .illegalCommand op zero => .cmdw (zero ++ op)
  | .literal payload => .ctrl (literalControl payload :: payload)
  | .reserved80 => .ctrl [0x80#8]
  | .repeatRun n v => .ctrl [repeatControl n, v]

/-- The bytes of an encoding that stands in a stream; a command word stands in none. -/
def Code.bytes : Code → List Byte
  | .cmdw _ => []
  | .ctrl bytes => bytes

/-- The group whose control byte is given and whose payload bytes are 0. -/
def zeroGroup (c : Byte) : List Byte := c :: List.replicate (payloadLength c) 0#8

/-- The instruction this decoder reads from a word numbered as the opcode table numbers it: rows of
32 bits are values written to CMD, rows of 8 bits are control bytes of the stream. A CMD value is one
32-bit number with no byte order (R44). -/
def decodeTableWord (nbits w : Nat) : Option Instr :=
  match nbits with
  | 32 => some (decodeCmd (BitVec.ofNat 32 w))
  | 8 =>
    match decodeGroup (zeroGroup (BitVec.ofNat 8 w)) with
    | .ok (i, _) => some i
    | .error _ => none
  | _ => none

end Sys2Proof
end

