-- ==== Sys2Proof/Config.lean ====
section
/-! DEFINITION. What an implementation fixes: the five parameters of R6, and the free values of
memory bytes nobody has written (R33, R34). -/

namespace Sys2Proof

/-- The three byte memories (R28, R29, R30). -/
inductive MemId where
  | im
  | rb
  | cb
deriving DecidableEq, Repr

/-- POLARITY (R6, R86): which side of the luminance threshold is dark. -/
inductive Polarity where
  | darkLeHalf
  | darkGtHalf
deriving DecidableEq, Repr

/-- The configuration record of R6. -/
structure Config where
  polarity : Polarity
  /-- IM_CAP, in pixels. -/
  imCap : Nat
  /-- RB_CAP, in bytes. -/
  rbCap : Nat
  /-- ROW_MAX, in bytes. -/
  rowMax : Nat
  /-- CB_CAP, in bytes. -/
  cbCap : Nat
deriving DecidableEq, Repr

/-- The defaults R6 suggests. DESIGN CHOICE (log 1): State.reset takes them. -/
def Config.default : Config :=
  { polarity := .darkLeHalf, imCap := 1048576, rbCap := 262144, rowMax := 8192, cbCap := 16384 }

/-- The constraints of R6 on the four capacities. -/
abbrev Config.Valid (c : Config) : Prop :=
  1 ≤ c.imCap ∧ 1 ≤ c.rbCap ∧ c.rbCap ≤ 4294967295 ∧ c.rowMax ≤ 65535 ∧ c.rowMax ≤ c.rbCap ∧
    (4 * c.rowMax + 2) / 3 ≤ c.cbCap

/-- The size of a memory in bytes (R28, R29, R30). -/
def Config.capacity (c : Config) : MemId → Nat
  | .im => 3 * c.imCap
  | .rb => c.rbCap
  | .cb => c.cbCap

/-- FREE VALUE (log 2). The value a byte holds that neither the host nor a command has written since
the given hardware reset: R33 and R34 leave it unspecified, and it may differ at every reset (U4).
Arguments: the number of the reset, the memory, the byte address. No body, so nothing rests on it. -/
opaque Config.unwrittenByte : Nat → MemId → Nat → Byte

end Sys2Proof
end

