-- ==== Sys2Proof/Machine/State.lean ====
section
/-! DEFINITION. The state as plain data: the registers, the three memories, the host's order of
events, the replies, and the reference decoder's position; the state after hardware reset; the
reasons a step can stop. -/

namespace Sys2Proof.Machine

open Sys2Proof

/-- STATUS (R13). Bits [7:2] and [31:16] read as zero and are held nowhere. -/
structure Status where
  /-- DONE, bit 0. -/
  done : Bool
  /-- ERR, bit 1. -/
  err : Bool
  /-- ERR_CODE, bits [15:8]. -/
  errCode : BitVec 8
deriving DecidableEq, Repr

/-- The registers of R13 to R26, each at its field's width (R11). CMD stores nothing (R12, log 14). -/
structure Regs where
  status : Status
  imgW : BitVec 16
  imgH : BitVec 16
  rasterW : BitVec 16
  srcOff : BitVec 32
  rowLen : BitVec 16
  stride : BitVec 16
  outH : BitVec 16
  bufLen : BitVec 32
  cmpLen : BitVec 32
  path : BitVec 2
  errExpect : BitVec 16
  /-- ERR_ACTUAL, bits [15:0] (R26). -/
  errActualW : BitVec 16
  /-- ERR_ACTUAL, bits [31:16] (R26). -/
  errActualH : BitVec 16
deriving DecidableEq, Repr

/-- STATUS after a reset of either kind (R34). -/
def Status.reset : Status := { done := false, err := false, errCode := 0 }

/-- Every register at its reset value (R34). -/
def Regs.reset : Regs :=
  { status := Status.reset, imgW := 0, imgH := 0, rasterW := 0, srcOff := 0, rowLen := 0,
    stride := 0, outH := 0, bufLen := 0, cmpLen := 0, path := 0, errExpect := 0,
    errActualW := 0, errActualH := 0 }

/-- A memory: the bytes written since the last hardware reset, by address. An unlisted address has
not been written (R33). -/
abbrev Memory := List Host.Cell

/-- What an unlisted address reads as: no byte at all. The byte such an address holds is the free
value `Config.unwrittenByte`, which the one read operation supplies (log 2). -/
abbrev Memory.unlisted : Option Byte := none

/-- The canonical form: addresses strictly rising, and no entry that is what an unlisted address reads as. -/
abbrev Memory.wf (m : Memory) : Prop :=
  m.Pairwise (fun x y => x.1 < y.1) ∧ ∀ c ∈ m, some c.2 ≠ Memory.unlisted

/-- Every listed address is below a capacity. -/
abbrev Memory.below (m : Memory) (cap : Nat) : Prop := ∀ c ∈ m, c.1 < cap

/-- The register names of R11. -/
inductive RegName where
  | cmd
  | status
  | imgW
  | imgH
  | rasterW
  | srcOff
  | rowLen
  | stride
  | outH
  | bufLen
  | cmpLen
  | path
  | errExpect
  | errActual
deriving DecidableEq, Repr

/-- The four address spaces the host sees (R40). -/
inductive Space where
  | reg
  | mem (m : MemId)
deriving DecidableEq, Repr

/-- One entry of the host's total order (R49): a bus transaction of R73, at any width and address so
that what R55 and R46 refuse can be named; a hardware reset from outside (R160); or the reference decoder
given a stream (R117). -/
inductive Event where
  /-- `W32 space addr data`. -/
  | w32 (space : Space) (addr : Nat) (data : Word)
  /-- `R32 space addr`. -/
  | r32 (space : Space) (addr : Nat)
  /-- `W8 space addr data`. -/
  | w8 (space : Space) (addr : Nat) (data : Byte)
  /-- `R8 space addr`. -/
  | r8 (space : Space) (addr : Nat)
  /-- An access of a width other than 8 and 32 bits (R55, R46, D21, log 9). -/
  | otherWidth (space : Space) (bits : Nat) (addr : Nat)
  /-- Power-on or a reset input (R160, log 11). -/
  | hardwareReset
  /-- DECODE is given the stream `z` (R117, log 5). -/
  | runDecoder (z : List Byte)
deriving DecidableEq, Repr

/-- What a host read returned. -/
inductive Reply where
  | word (w : Word)
  | byte (b : Byte)
deriving DecidableEq, Repr

/-- The machine. `regs`, `im`, `rb` and `cb` are the spec's state (R10); the rest is the model's own
(INVENTORY.md): the parameters of R6, which no step changes, the count of hardware resets the free
values are applied to, the host's remaining events, its replies oldest first, and DECODE's remaining
input and output. -/
structure State where
  cfg : Config
  regs : Regs
  im : Memory
  rb : Memory
  cb : Memory
  resets : Nat
  pending : List Event
  replies : List Reply
  decIn : List Byte
  decOut : List Byte
deriving DecidableEq, Repr

/-- The machine right after hardware reset (R34, R160): every register 0, no memory byte written, and
nothing asked of it yet. The parameters are R6's defaults (log 1). -/
def State.reset : State :=
  { cfg := Config.default, regs := Regs.reset, im := [], rb := [], cb := [], resets := 0,
    pending := [], replies := [], decIn := [], decOut := [] }

/-- Why the machine can fault. The spec's four errors are no faults: they are outcomes of a command,
reported in STATUS (R140). -/
inductive Fault where
  /-- Raised by COMPRESS when its output is longer than CB. R112 says that never happens, by R6's
  constraint on CB_CAP: it takes a configuration R6 does not allow (log 8). Safe. -/
  | cbOverflow (needed : Nat)
deriving DecidableEq, Repr

/-- What the model gives no meaning. -/
inductive Refusal where
  /-- An instruction without a meaning yet. Raised by Dispatch only. Safe. -/
  | notModelled (mnemonic : String)
  /-- A REG access that is not 32 bits wide (R55, U6), or an IM, RB or CB access that is not 8 bits wide
  (R46, D21). Raised by the host's access. Safe. -/
  | accessWidth (space : Space) (bits : Nat)
  /-- A REG access at an offset that is no multiple of 4 (R55, U6). Raised by the host's access. Safe. -/
  | regMisaligned (offset : Nat)
  /-- A REG access at 0x1000 or above, or an IM, RB or CB access at or beyond the capacity (R55, U6).
  Raised by the host's access. Safe. -/
  | outsideSpace (space : Space) (addr : Nat)
  /-- A host write to CB (R55, U6). Raised by the host's access. Safe. -/
  | cbHostWrite (addr : Nat)
  /-- DECODE met the control byte 128 (R69, R117, U2). Raised by RESERVED_80. Safe. -/
  | reservedControlByte
  /-- DECODE's stream ends inside a group (R117, U15). Raised by the fetch of a group. Safe. -/
  | truncatedGroup
deriving DecidableEq, Repr

end Sys2Proof.Machine
end

