-- ==== Sys2Proof/Machine/Ops.lean ====
section
/-! DEFINITION. The named operations over memories and registers, and raising an error. -/

namespace Sys2Proof.Machine

open Sys2Proof

/-- The byte a memory lists at an address; none where nobody has written (R33). -/
def Memory.lookup (m : Memory) (a : Nat) : Option Byte :=
  (m.find? (fun c => c.1 == a)).map (fun c => c.2)

/-- Bytes with the addresses they go to, from `a` upwards. -/
def cellsAt : Nat → List Byte → Memory
  | _, [] => []
  | a, b :: bs => (a, b) :: cellsAt (a + 1) bs

/-- Storing bytes at `a`, `a + 1`, ...: the one write of a memory, keeping its canonical form. -/
def Memory.store (m : Memory) (a : Nat) (bs : List Byte) : Memory :=
  m.filter (fun c => c.1 < a) ++ cellsAt a bs ++ m.filter (fun c => a + bs.length ≤ c.1)

/-- The memory of a name (R40: the spaces do not alias). -/
def State.mem (s : State) : MemId → Memory
  | .im => s.im
  | .rb => s.rb
  | .cb => s.cb

/-- Replacing one memory. -/
def State.setMem (s : State) (m : MemId) (v : Memory) : State :=
  match m with
  | .im => { s with im := v }
  | .rb => { s with rb := v }
  | .cb => { s with cb := v }

/-- Storing bytes in one memory of the machine. -/
def State.storeBytes (s : State) (m : MemId) (a : Nat) (bs : List Byte) : State :=
  s.setMem m ((s.mem m).store a bs)

/-- `IM[a]`, `RB[a]`, `CB[a]` (R8): the stored byte, or, where nobody has written since the last
hardware reset, the free value the byte holds (R33, log 2). -/
def readByte (s : State) (m : MemId) (a : Nat) : Byte :=
  ((s.mem m).lookup a).getD (Config.unwrittenByte s.resets m a)

/-- `n` bytes of a memory from `a` upwards. -/
def readBytes (s : State) (m : MemId) : Nat → Nat → List Byte
  | _, 0 => []
  | a, n + 1 => readByte s m a :: readBytes s m (a + 1) n

/-- Replacing the register file. -/
def State.setRegs (s : State) (r : Regs) : State := { s with regs := r }

/-- Writing STATUS. -/
def State.setStatus (s : State) (st : Status) : State := s.setRegs { s.regs with status := st }

/-- What a host read returns (R134, R135). -/
def State.addReply (s : State) (r : Reply) : State := { s with replies := s.replies ++ [r] }

/-- DECODE's `append ... to out` (R117). -/
def State.appendDecoded (s : State) (bs : List Byte) : State := { s with decOut := s.decOut ++ bs }

/-- The four errors with what each records (R141). -/
inductive Error where
  /-- DIM_MISMATCH with the expected width and the actual size (R142). -/
  | dimMismatch (expected width height : BitVec 16)
  /-- CAPACITY (R143). -/
  | capacity
  /-- RANGE (R144). -/
  | range
  /-- ILLEGAL_CMD (R145). -/
  | illegalCmd
deriving DecidableEq, Repr

/-- The error codes of R141. -/
def errorCode : Error → BitVec 8
  | .dimMismatch _ _ _ => 0x01
  | .capacity => 0x02
  | .range => 0x03
  | .illegalCmd => 0x04

/-- What an error records besides its code: DIM_MISMATCH writes ERR_EXPECT and ERR_ACTUAL, the others
nothing (R142 to R146). -/
def recordError (e : Error) (r : Regs) : Regs :=
  match e with
  | .dimMismatch expected width height =>
    { r with errExpect := expected, errActualW := width, errActualH := height }
  | .capacity => r
  | .range => r
  | .illegalCmd => r

/-- `raise E(info)` (R146): the one error entry. STATUS gets (DONE = 1, ERR = 1, ERR_CODE = code), the
report registers what the error records, and nothing else is written. There is nothing to return
from (R149). -/
def raiseError (e : Error) (s : State) : State :=
  (s.setRegs (recordError e s.regs)).setStatus { done := true, err := true, errCode := errorCode e }

/-- The end of a command that succeeded (R130): STATUS <- (DONE = 1, ERR = 0, ERR_CODE = 0). -/
def succeed (s : State) : State := s.setStatus { done := true, err := false, errCode := 0 }

/-- Hardware reset (R160, R34): every register at its reset value and every memory byte unspecified.
The host's remaining events and its replies are not the block's. -/
def hardwareReset (s : State) : State :=
  { s with regs := Regs.reset, im := [], rb := [], cb := [], resets := s.resets + 1 }

end Sys2Proof.Machine
end

