-- ==== Sys2Proof/Machine/Flags.lean ====
section
/-! DEFINITION. STATUS as a word (R13, R14). DONE and ERR are the block's only flags; the two ways a
command writes them are `succeed` and `raiseError` of Ops. -/

namespace Sys2Proof.Machine

open Sys2Proof

/-- STATUS as the host reads it (R13): DONE in bit 0, ERR in bit 1, ERR_CODE in bits [15:8], every
other bit zero. -/
def statusWord (st : Status) : Word :=
  0#16 ++ st.errCode ++ 0#6 ++ BitVec.ofBool st.err ++ BitVec.ofBool st.done

end Sys2Proof.Machine
end

