-- ==== Sys2Proof/Machine/Operands.lean ====
section
/-! DEFINITION. Operands: the register map with its reads and writes (R11, R133, R134), the pixels of
IM (R8, R65), and the input row of COMPRESS (R100). -/

namespace Sys2Proof.Machine

open Sys2Proof

/-- The byte offset of a register in REG (R11). -/
def regOffset : RegName → Nat
  | .cmd => 0x00
  | .status => 0x04
  | .imgW => 0x08
  | .imgH => 0x0C
  | .rasterW => 0x10
  | .srcOff => 0x14
  | .rowLen => 0x18
  | .stride => 0x1C
  | .outH => 0x20
  | .bufLen => 0x24
  | .cmpLen => 0x28
  | .path => 0x2C
  | .errExpect => 0x30
  | .errActual => 0x34

/-- The register at an offset of REG; none at a reserved offset (R41). -/
def regAt : Nat → Option RegName
  | 0x00 => some .cmd
  | 0x04 => some .status
  | 0x08 => some .imgW
  | 0x0C => some .imgH
  | 0x10 => some .rasterW
  | 0x14 => some .srcOff
  | 0x18 => some .rowLen
  | 0x1C => some .stride
  | 0x20 => some .outH
  | 0x24 => some .bufLen
  | 0x28 => some .cmpLen
  | 0x2C => some .path
  | 0x30 => some .errExpect
  | 0x34 => some .errActual
  | _ => none

/-- A register as the host reads it (R134): its value in its field bits, zero in every other bit; CMD
reads 0 (R12). -/
def regRead (r : Regs) : RegName → Word
  | .cmd => 0
  | .status => statusWord r.status
  | .imgW => r.imgW.setWidth 32
  | .imgH => r.imgH.setWidth 32
  | .rasterW => r.rasterW.setWidth 32
  | .srcOff => r.srcOff
  | .rowLen => r.rowLen.setWidth 32
  | .stride => r.stride.setWidth 32
  | .outH => r.outH.setWidth 32
  | .bufLen => r.bufLen
  | .cmpLen => r.cmpLen
  | .path => r.path.setWidth 32
  | .errExpect => r.errExpect.setWidth 32
  | .errActual => r.errActualH ++ r.errActualW

/-- The word a host read of a 4-aligned offset of REG returns (R134): reserved offsets read 0. -/
def regReadAt (r : Regs) (offset : Nat) : Word :=
  match regAt offset with
  | some n => regRead r n
  | none => 0

/-- A host write to a register other than CMD (R133): an RW register takes the low bits of the word up
to its field width; a write to an RO register is ignored. A write to CMD is a command and stores
nothing here (R12). -/
def regWrite (r : Regs) (n : RegName) (w : Word) : Regs :=
  match n with
  | .imgW => { r with imgW := w.setWidth 16 }
  | .imgH => { r with imgH := w.setWidth 16 }
  | .rasterW => { r with rasterW := w.setWidth 16 }
  | .srcOff => { r with srcOff := w }
  | .rowLen => { r with rowLen := w.setWidth 16 }
  | .cmd => r
  | .status => r
  | .stride => r
  | .outH => r
  | .bufLen => r
  | .cmpLen => r
  | .path => r
  | .errExpect => r
  | .errActual => r

/-- A host write to a 4-aligned offset of REG other than CMD (R133): reserved offsets ignore it. -/
def regWriteAt (r : Regs) (offset : Nat) (w : Word) : Regs :=
  match regAt offset with
  | some n => regWrite r n w
  | none => r

/-- A pixel: red, green, blue (R65). -/
structure Pixel where
  red : Byte
  green : Byte
  blue : Byte
deriving DecidableEq, Repr

/-- `Pix(k)` (R8): the pixel of index k, at IM[3k], IM[3k + 1], IM[3k + 2]. -/
def readPixel (s : State) (k : Nat) : Pixel :=
  { red := readByte s .im (3 * k), green := readByte s .im (3 * k + 1),
    blue := readByte s .im (3 * k + 2) }

/-- The input of COMPRESS (R100): the ROW_LEN bytes of RB from SRC_OFF. -/
def inputRow (s : State) : List Byte := readBytes s .rb s.regs.srcOff.toNat s.regs.rowLen.toNat

end Sys2Proof.Machine
end

