-- ==== Sys2Proof/Machine/Bus.lean ====
section
/-! DEFINITION. The host's accesses (R55, R133 to R135), and which instruction or access comes next. -/

namespace Sys2Proof.Machine

open Sys2Proof

/-- What the next event of the host's order, or the next group of DECODE's stream, is. -/
inductive Fetched where
  /-- An instruction to run, at the state past its encoding. -/
  | run (i : Instr) (s : State)
  /-- An access that is complete. -/
  | done (s : State)
  /-- An access or a group the model gives no meaning. -/
  | stop (r : Refusal)
deriving DecidableEq, Repr

/-- The check of a REG access (R45, R55). -/
def checkReg (offset : Nat) : Option Refusal :=
  if 0x1000 ≤ offset then some (.outsideSpace .reg offset)
  else if offset % 4 ≠ 0 then some (.regMisaligned offset)
  else none

/-- The check of a memory access (R45, R55). -/
def checkMem (c : Config) (m : MemId) (a : Nat) : Option Refusal :=
  if a < c.capacity m then none else some (.outsideSpace (.mem m) a)

/-- A 32-bit host write to REG (R133): to CMD it is a command (R130). -/
def writeReg (offset : Nat) (w : Word) (s : State) : Fetched :=
  match checkReg offset with
  | some r => .stop r
  | none =>
    if offset = regOffset .cmd then .run (decodeCmd w) s
    else .done (s.setRegs (regWriteAt s.regs offset w))

/-- A 32-bit host read of REG (R134). -/
def readReg (offset : Nat) (s : State) : Fetched :=
  match checkReg offset with
  | some r => .stop r
  | none => .done (s.addReply (.word (regReadAt s.regs offset)))

/-- A one-byte host write to a memory (R135): CB is not the host's to write. -/
def writeMem (m : MemId) (a : Nat) (b : Byte) (s : State) : Fetched :=
  if m = .cb then .stop (.cbHostWrite a)
  else
    match checkMem s.cfg m a with
    | some r => .stop r
    | none => .done (s.storeBytes m a [b])

/-- A one-byte host read of a memory (R135). -/
def readMem (m : MemId) (a : Nat) (s : State) : Fetched :=
  match checkMem s.cfg m a with
  | some r => .stop r
  | none => .done (s.addReply (.byte (readByte s m a)))

/-- One event of the host's order, at the state past it. REG takes 32-bit accesses only, the memories
8-bit accesses only (R46, R55). -/
def performEvent (e : Event) (s : State) : Fetched :=
  match e with
  | .w32 .reg a w => writeReg a w s
  | .w32 (.mem m) _ _ => .stop (.accessWidth (.mem m) 32)
  | .r32 .reg a => readReg a s
  | .r32 (.mem m) _ => .stop (.accessWidth (.mem m) 32)
  | .w8 .reg _ _ => .stop (.accessWidth .reg 8)
  | .w8 (.mem m) a b => writeMem m a b s
  | .r8 .reg _ => .stop (.accessWidth .reg 8)
  | .r8 (.mem m) a => readMem m a s
  | .otherWidth sp bits _ => .stop (.accessWidth sp bits)
  | .hardwareReset => .done (hardwareReset s)
  | .runDecoder z => .done { s with decIn := z, decOut := [] }

/-- DECODE's next group (R117), at the state past its bytes. A stream with no byte left is not reached
here, and a group's decoder meets a reserved control byte as the instruction RESERVED_80. -/
def fetchGroup (s : State) : Fetched :=
  match decodeGroup s.decIn with
  | .ok (i, rest) => .run i { s with decIn := rest }
  | .error .endOfStream => .done s
  | .error .truncated => .stop .truncatedGroup
  | .error .reserved => .stop .reservedControlByte

/-- What comes next: DECODE goes on while it has input left (log 5); then the host's next event; with
neither, the block is idle and nothing changes (R34, R170, log 3). -/
def fetchNext (s : State) : Fetched :=
  match s.decIn with
  | _ :: _ => fetchGroup s
  | [] =>
    match s.pending with
    | e :: rest => performEvent e { s with pending := rest }
    | [] => .done s

/-- Placing an instruction, numbered as the opcode table numbers it, where it is fetched next: a command
word as the host's next write to CMD, a control byte with payload bytes of 0 at the head of DECODE's
stream. -/
def placeTableWord (s : State) (nbits w : Nat) : State :=
  match nbits with
  | 32 => { s with decIn := [], pending := .w32 .reg (regOffset .cmd) (BitVec.ofNat 32 w) :: s.pending }
  | 8 => { s with decIn := zeroGroup (BitVec.ofNat 8 w) ++ s.decIn }
  | _ => s

end Sys2Proof.Machine
end

