-- ==== Sys2Proof/Machine/Commands.lean ====
section
/-! DEFINITION. The housekeeping commands NOP and RESET (R131, R132), and illegal commands (R145). -/

namespace Sys2Proof.Machine

open Sys2Proof

/-- NOP (R131): reports success and changes nothing else. -/
def execNop (s : State) : Host.Outcome State Fault Refusal := .next (succeed s)

/-- RESET (R132): every register to its reset value, STATUS too; the memories are not changed. The RW
registers are among them, whatever R54 says of commands in general (log 10). -/
def execReset (s : State) : Host.Outcome State Fault Refusal := .next (s.setRegs Regs.reset)

/-- An illegal command (R71, R145): raises ILLEGAL_CMD; the offending value is not kept. -/
def execIllegalCommand (_op : BitVec 8) (_zero : BitVec 24) (s : State) :
    Host.Outcome State Fault Refusal :=
  .next (raiseError .illegalCmd s)

end Sys2Proof.Machine
end

