-- ==== Sys2Proof/Machine/Compress.lean ====
section
/-! DEFINITION. COMPRESS (41_compress.md): the state machine of R110, and the closed form of R111. -/

namespace Sys2Proof.Machine

open Sys2Proof

/-- The accumulation modes (R31, R101). -/
inductive Mode where
  | lit
  | rep
deriving DecidableEq, Repr

/-- The compressor's run state (R31), alive inside one COMPRESS: `lit` is the literal buffer with the
oldest byte first, `out` the bytes emitted so far. -/
structure RunState where
  mode : Mode
  lit : List Byte
  value : Byte
  count : Nat
  out : List Byte
deriving DecidableEq, Repr

/-- The run state at the start of every COMPRESS (R101); the value is irrelevant while the count is 0. -/
def runStart : RunState := { mode := .lit, lit := [], value := 0, count := 0, out := [] }

/-- FlushLit (R107). -/
def flushLit (r : RunState) : RunState :=
  if r.lit.length > 0 then
    { r with out := r.out ++ BitVec.ofNat 8 (r.lit.length - 1) :: r.lit, lit := [] }
  else r

/-- The control byte of a repeat run of R bytes (R108): `(257 - R) mod 256`. -/
def repeatRunControl (count : Nat) : Byte := BitVec.ofNat 8 ((257 - count) % 256)

/-- FlushRep (R108). -/
def flushRep (r : RunState) : RunState :=
  { r with out := r.out ++ [repeatRunControl r.count, r.value], count := 0 }

/-- Literal to repeat (R103), before the byte is consumed. -/
def enterRepeat (c : Byte) (eq : Bool) (r : RunState) : RunState :=
  if r.mode = .lit ∧ eq = true then { flushLit r with mode := .rep, value := c, count := 0 } else r

/-- Literal accumulation (R104, R106). -/
def consumeLit (c : Byte) (r : RunState) : RunState :=
  let r1 := { r with lit := r.lit ++ [c] }
  if r1.lit.length = 127 then flushLit r1 else r1

/-- Repeat accumulation, the return to literal mode and the forced flush (R105, R106). -/
def consumeRep (eq : Bool) (r : RunState) : RunState :=
  let r1 := { r with count := r.count + 1 }
  if eq = false then { flushRep r1 with mode := .lit }
  else if r1.count = 127 then flushRep r1
  else r1

/-- One step of the scan with its current byte and its lookahead fact (R102 to R106). -/
def scanStep (c : Byte) (eq : Bool) (r : RunState) : RunState :=
  let r1 := enterRepeat c eq r
  match r1.mode with
  | .lit => consumeLit c r1
  | .rep => consumeRep eq r1

/-- `eq(p)` (R102): the next byte exists and equals the current one. -/
def nextEquals (c : Byte) (rest : List Byte) : Bool :=
  match rest with
  | [] => false
  | d :: _ => decide (d = c)

/-- The scan, left to right, one byte a step (R102). -/
def scan : List Byte → RunState → RunState
  | [], r => r
  | c :: rest, r => scan rest (scanStep c (nextEquals c rest) r)

/-- The bytes COMPRESS emits for an input (R109, R110). -/
def compressBytes (b : List Byte) : List Byte := (flushLit (scan b runStart)).out

/-- The registers a successful COMPRESS writes, STATUS apart (R112). -/
def compressResults (r : Regs) (z : List Byte) : Regs := { r with cmpLen := BitVec.ofNat 32 z.length }

/-- The input row is longer than ROW_MAX or reaches beyond RB, in exact naturals (R113, R144). -/
def outOfRange (c : Config) (off n : Nat) : Bool :=
  decide (n > c.rowMax) || decide (off + n > c.rbCap)

/-- The output of COMPRESS written from CB[0], with its length and STATUS (R112). -/
def writeCompressed (z : List Byte) (s : State) : State :=
  succeed ((s.storeBytes .cb 0 z).setRegs (compressResults s.regs z))

/-- COMPRESS (R110). The fault is met in no configuration R6 allows (R112, log 8). -/
def execCompress (s : State) : Host.Outcome State Fault Refusal :=
  if outOfRange s.cfg s.regs.srcOff.toNat s.regs.rowLen.toNat then .next (raiseError .range s)
  else
    let z := compressBytes (inputRow s)
    if z.length > s.cfg.cbCap then .fault (.cbOverflow z.length)
    else .next (writeCompressed z s)

/-- The maximal groups of equal adjacent bytes, each with its length (R111). -/
def equalGroups : List Byte → List (Byte × Nat)
  | [] => []
  | b :: rest =>
    match equalGroups rest with
    | [] => [(b, 1)]
    | (v, k) :: gs => if b = v then (v, k + 1) :: gs else (b, 1) :: (v, k) :: gs

/-- A sequence of singletons cut from the left into chunks of at most 127, each emitted as its length
less 1 and its bytes (R111). -/
def literalChunks (bs : List Byte) : List Byte :=
  (List.range ((bs.length + 126) / 127)).flatMap (fun q =>
    let chunk := (bs.drop (127 * q)).take 127
    BitVec.ofNat 8 (chunk.length - 1) :: chunk)

/-- A run of length k (R111): `k div 127` pairs `82 v`, then the pair of the remainder when it is not 0. -/
def repeatChunks (v : Byte) (k : Nat) : List Byte :=
  (List.replicate (k / 127) [0x82#8, v]).flatten ++
    if k % 127 = 0 then [] else [repeatRunControl (k % 127), v]

/-- The emission of R111, with the singletons gathered so far. -/
def closedEmit : List Byte → List (Byte × Nat) → List Byte
  | acc, [] => literalChunks acc
  | acc, (v, k) :: gs =>
    if k = 1 then closedEmit (acc ++ [v]) gs
    else literalChunks acc ++ repeatChunks v k ++ closedEmit [] gs

/-- The closed form of R111. -/
def compressClosed (b : List Byte) : List Byte := closedEmit [] (equalGroups b)

end Sys2Proof.Machine
end

