-- ==== Sys2Proof/Machine/Rasterize.lean ====
section
/-! DEFINITION. RASTERIZE (40_rasterize.md). -/

namespace Sys2Proof.Machine

open Sys2Proof

/-- The luminance sum S of a pixel (R84). -/
def lumSum (p : Pixel) : Nat := 55 * p.red.toNat + 182 * p.green.toNat + 18 * p.blue.toNat

/-- The threshold in exact integers (R85). -/
def leHalf (p : Pixel) : Bool := decide (lumSum p ≤ 32512)

/-- Whether a pixel is dark under a polarity (R86). -/
def dark (pol : Polarity) (p : Pixel) : Bool :=
  match pol with
  | .darkLeHalf => leHalf p
  | .darkGtHalf => !leHalf p

/-- The two orientation paths (R81). -/
inductive Orientation where
  | flip
  | transpose
deriving DecidableEq, Repr

/-- Orientation selection (R81): the width first; none when neither axis matches. -/
def orientation (w h rw : Nat) : Option Orientation :=
  if w = rw then some .flip else if h = rw then some .transpose else none

/-- OW, the width of the oriented image (R81). -/
def orientedWidth (o : Orientation) (w h : Nat) : Nat :=
  match o with
  | .flip => w
  | .transpose => h

/-- OH, the height of the oriented image (R81). -/
def orientedHeight (o : Orientation) (w h : Nat) : Nat :=
  match o with
  | .flip => h
  | .transpose => w

/-- The index of the input pixel that `O(x, y)` is, in an image of width w: the flip of R82 or the
transpose of R83. -/
def sourceIndex (o : Orientation) (w x y : Nat) : Nat :=
  match o with
  | .flip => y * w + (w - 1 - x)
  | .transpose => x * w + y

/-- STRIDE' = ceil(OW / 8) (R87). -/
def rowStride (ow : Nat) : Nat := (ow + 7) / 8

/-- The value PATH takes (R91). -/
def pathCode (o : Orientation) : BitVec 2 :=
  match o with
  | .flip => 1
  | .transpose => 2

/-- The sum of `2^(7 - i)` over the lanes i below k whose bit is set. -/
def laneSum (bit : Nat → Bool) : Nat → Nat
  | 0 => 0
  | k + 1 => laneSum bit k + if bit k then 2 ^ (7 - k) else 0

/-- A byte of eight lanes, lane i in bit 7 - i (R88). -/
def packLanes (bit : Nat → Bool) : Byte := BitVec.ofNat 8 (laneSum bit 8)

/-- The bit of output column x of row y: 0 where no pixel is (R88, R89). -/
def rasterBit (s : State) (o : Orientation) (w ow x y : Nat) : Bool :=
  decide (x < ow) && dark s.cfg.polarity (readPixel s (sourceIndex o w x y))

/-- Byte j of output row y (R88). -/
def rasterByte (s : State) (o : Orientation) (w ow y j : Nat) : Byte :=
  packLanes (fun i => rasterBit s o w ow (8 * j + i) y)

/-- The whole raster buffer, row after row (R43, R64): byte j of row y is at index `y * stride + j`. -/
def rasterBytes (s : State) (o : Orientation) (w ow oh : Nat) : List Byte :=
  (List.range (rowStride ow * oh)).map
    (fun k => rasterByte s o w ow (k / rowStride ow) (k % rowStride ow))

/-- The registers a successful RASTERIZE writes, STATUS apart (R91). -/
def rasterResults (r : Regs) (o : Orientation) (ow oh : Nat) : Regs :=
  { r with
    stride := BitVec.ofNat 16 (rowStride ow)
    outH := BitVec.ofNat 16 oh
    bufLen := BitVec.ofNat 32 (rowStride ow * oh)
    path := pathCode o }

/-- The image or the raster buffer does not fit (R143). -/
def overCapacity (c : Config) (w h ow oh : Nat) : Bool :=
  decide (w * h > c.imCap) || decide (rowStride ow * oh > c.rbCap)

/-- RASTERIZE once the orientation is chosen (R90). -/
def rasterizeOriented (o : Orientation) (w h : Nat) (s : State) : State :=
  let ow := orientedWidth o w h
  let oh := orientedHeight o w h
  if overCapacity s.cfg w h ow oh then raiseError .capacity s
  else
    succeed ((s.storeBytes .rb 0 (rasterBytes s o w ow oh)).setRegs (rasterResults s.regs o ow oh))

/-- RASTERIZE (R90). -/
def execRasterize (s : State) : Host.Outcome State Fault Refusal :=
  let w := s.regs.imgW.toNat
  let h := s.regs.imgH.toNat
  match orientation w h s.regs.rasterW.toNat with
  | none => .next (raiseError (.dimMismatch s.regs.rasterW s.regs.imgW s.regs.imgH) s)
  | some o => .next (rasterizeOriented o w h s)

end Sys2Proof.Machine
end

