-- ==== Sys2Proof/Machine/Stream.lean ====
section
/-! DEFINITION. The groups of the compressed stream (R66, R67) as DECODE performs them, and DECODE as
one function (R117). -/

namespace Sys2Proof.Machine

open Sys2Proof

/-- The repeat count of a REPEAT group (R67): `129 - n`, which is `257 - c`. -/
def repeatCount (n : BitVec 7) : Nat := 129 - n.toNat

/-- LITERAL (R67, R117): the payload is appended to the decoded output. -/
def execLiteral (payload : List Byte) (s : State) : Host.Outcome State Fault Refusal :=
  .next (s.appendDecoded payload)

/-- RESERVED_80 (R69, R117): DECODE refuses it; no meaning is given to it. -/
def execReserved80 (_s : State) : Host.Outcome State Fault Refusal := .refused .reservedControlByte

/-- REPEAT (R67, R117): the value is appended `257 - c` times. -/
def execRepeatRun (n : BitVec 7) (value : Byte) (s : State) : Host.Outcome State Fault Refusal :=
  .next (s.appendDecoded (List.replicate (repeatCount n) value))

/-- DECODE (R117) with fuel: each group takes at least one byte, so the stream's length is enough. -/
def decodeStreamFuel : Nat → List Byte → Except DecodeError (List Byte)
  | _, [] => .ok []
  | 0, _ :: _ => .error .truncated
  | fuel + 1, c :: rest =>
    if c.toNat ≤ 127 then
      if c.toNat + 1 > rest.length then .error .truncated
      else
        match decodeStreamFuel fuel (rest.drop (c.toNat + 1)) with
        | .ok out => .ok (rest.take (c.toNat + 1) ++ out)
        | .error e => .error e
    else if c.toNat = 128 then .error .reserved
    else
      match rest with
      | [] => .error .truncated
      | v :: rest' =>
        match decodeStreamFuel fuel rest' with
        | .ok out => .ok (List.replicate (257 - c.toNat) v ++ out)
        | .error e => .error e

/-- The reference function DECODE (R117): the decoded bytes, or its refusal. -/
def decodeStream (z : List Byte) : Except DecodeError (List Byte) := decodeStreamFuel z.length z

end Sys2Proof.Machine
end

