-- ==== Sys2Proof/Machine/Dispatch.lean ====
section
/-! DEFINITION. One arm per instruction. -/

namespace Sys2Proof.Machine

open Sys2Proof

def exec (i : Instr) (s : State) : Host.Outcome State Fault Refusal :=
  match i with
  | .nop => Sys2Proof.Machine.execNop s
  | .rasterize => Sys2Proof.Machine.execRasterize s
  | .compress => Sys2Proof.Machine.execCompress s
  | .reset => Sys2Proof.Machine.execReset s
  | .illegalCommand op zero => Sys2Proof.Machine.execIllegalCommand op zero s
  | .literal payload => Sys2Proof.Machine.execLiteral payload s
  | .reserved80 => Sys2Proof.Machine.execReserved80 s
  | .repeatRun n value => Sys2Proof.Machine.execRepeatRun n value s

end Sys2Proof.Machine
end

