-- ==== Sys2Proof/Machine/Step.lean ====
section
/-! DEFINITION. One step: the next group of DECODE's stream or the next event of the host's order,
performed to its end (R47, R130). -/

namespace Sys2Proof.Machine

open Sys2Proof

/-- One step. -/
def step (s : State) : Host.Outcome State Fault Refusal :=
  match fetchNext s with
  | .run i s' => exec i s'
  | .done s' => .next s'
  | .stop r => .refused r

/-- The state with an instruction of the opcode table placed where `step` fetches next (log 7). -/
def State.withFetchWord (s : State) (nbits w : Nat) : State := placeTableWord s nbits w

end Sys2Proof.Machine
end

