-- ==== Sys2Proof/Machine/Script.lean ====
section
/-! DEFINITION. Host scripts: the notation of R73 and R74 and the bus transactions it stands for. -/

namespace Sys2Proof.Machine

open Sys2Proof

/-- A statement of a host script (R73, R74). -/
inductive Stmt where
  /-- `wr NAME, value`. -/
  | wr (name : RegName) (value : Word)
  /-- `rd NAME`. -/
  | rd (name : RegName)
  /-- `wrb SPACE[addr], b0 b1 ... bk`. -/
  | wrb (m : MemId) (addr : Nat) (bytes : List Byte)
  /-- `rdb SPACE[addr], n`. -/
  | rdb (m : MemId) (addr n : Nat)
  /-- `cmd NOP`. -/
  | cmdNop
  /-- `cmd RASTERIZE`. -/
  | cmdRasterize
  /-- `cmd COMPRESS`. -/
  | cmdCompress
  /-- `cmd RESET`. -/
  | cmdReset
  /-- `pix k, (r,g,b) (r,g,b) ...`. -/
  | pix (k : Nat) (pixels : List Pixel)
  /-- `fill SPACE[addr], n, b`. -/
  | fill (m : MemId) (addr n : Nat) (b : Byte)
deriving DecidableEq, Repr

/-- `W8 SPACE addr b0`, `W8 SPACE addr+1 b1`, ... (R73). -/
def writeBurst (m : MemId) : Nat → List Byte → List Event
  | _, [] => []
  | a, b :: bs => .w8 (.mem m) a b :: writeBurst m (a + 1) bs

/-- `R8 SPACE addr`, `R8 SPACE addr+1`, ... (R73). -/
def readBurst (m : MemId) : Nat → Nat → List Event
  | _, 0 => []
  | a, n + 1 => .r8 (.mem m) a :: readBurst m (a + 1) n

/-- A pixel's bytes in IM order (R65). -/
def pixelBytes (p : Pixel) : List Byte := [p.red, p.green, p.blue]

/-- The bus transactions of a statement (R73, R74). -/
def stmtEvents : Stmt → List Event
  | .wr n v => [.w32 .reg (regOffset n) v]
  | .rd n => [.r32 .reg (regOffset n)]
  | .wrb m a bs => writeBurst m a bs
  | .rdb m a n => readBurst m a n
  | .cmdNop => [.w32 .reg (regOffset .cmd) 0x00]
  | .cmdRasterize => [.w32 .reg (regOffset .cmd) 0x01]
  | .cmdCompress => [.w32 .reg (regOffset .cmd) 0x02]
  | .cmdReset => [.w32 .reg (regOffset .cmd) 0xFF]
  | .pix k ps => writeBurst .im (3 * k) (ps.flatMap pixelBytes)
  | .fill m a n b => writeBurst m a (List.replicate n b)

/-- The bus transactions of a script, in order (R73, R75). -/
def scriptEvents (script : List Stmt) : List Event := script.flatMap stmtEvents

/-- A machine about to perform a script after what is pending. -/
def withScript (script : List Stmt) (s : State) : State :=
  { s with pending := s.pending ++ scriptEvents script }

/-- The statements of R136 for raster row k of a buffer of the given stride, up to reading CMP_LEN. -/
def rowScript (stride k : Nat) : List Stmt :=
  [.wr .srcOff (BitVec.ofNat 32 (k * stride)), .wr .rowLen (BitVec.ofNat 32 stride), .cmdCompress,
    .rd .cmpLen]

end Sys2Proof.Machine
end

