-- ==== Sys2Proof/Safety.lean ====
section
/-! DEFINITION. What a good state and a safe step are, in the terms the statements use. -/

namespace Sys2Proof.Machine

open Sys2Proof

/-- STATUS is one of the reports of R13 and R141: no command yet, success, or an error with one of the
four codes. -/
abbrev Status.Good (st : Status) : Prop :=
  (st.done = false → st.err = false) ∧ (st.err = false → st.errCode = 0) ∧
    (st.err = true → 1 ≤ st.errCode.toNat ∧ st.errCode.toNat ≤ 4)

/-- The result registers fit together (R20, R22, R23, R24). -/
abbrev Regs.Good (r : Regs) (c : Config) : Prop :=
  r.status.Good ∧ r.path ≠ 3 ∧ r.stride.toNat ≤ 8192 ∧
    r.bufLen.toNat = r.stride.toNat * r.outH.toNat ∧ r.bufLen.toNat ≤ c.rbCap ∧
    r.cmpLen.toNat ≤ (4 * c.rowMax + 2) / 3 ∧ (r.path = 0 → r.stride = 0 ∧ r.outH = 0)

/-- The memories are in canonical form and inside their capacities (R28, R29, R30). -/
abbrev State.MemoriesGood (s : State) : Prop :=
  Memory.wf s.im ∧ Memory.wf s.rb ∧ Memory.wf s.cb ∧
    Memory.below s.im (s.cfg.capacity .im) ∧ Memory.below s.rb (s.cfg.capacity .rb) ∧
    Memory.below s.cb (s.cfg.capacity .cb)

/-- The invariant of the machine. -/
structure State.Inv (s : State) : Prop where
  cfgValid : s.cfg.Valid
  regsGood : s.regs.Good s.cfg
  memoriesGood : s.MemoriesGood

/-- The host's next event is `e`, with `rest` after it, and DECODE has no input left. -/
abbrev State.Next (s : State) (e : Event) (rest : List Event) : Prop :=
  s.decIn = [] ∧ s.pending = e :: rest

/-- The host's next event is one of which `p` holds, and DECODE has no input left. -/
def State.NextIs (s : State) (p : Event → Prop) : Prop := ∃ e rest, s.Next e rest ∧ p e

/-- STATUS of a command that succeeded (R130). -/
abbrev Status.success : Status := { done := true, err := false, errCode := 0 }

/-- STATUS of a command that ended with the error of a code (R146). -/
abbrev Status.failure (code : BitVec 8) : Status := { done := true, err := true, errCode := code }

/-- What R101 says of the run state between two steps of the scan. -/
abbrev RunState.Good (r : RunState) : Prop :=
  (r.mode = .lit → r.count = 0) ∧ (r.mode = .rep → r.lit = []) ∧ r.lit.length ≤ 126 ∧ r.count ≤ 126

/-- The groups the compressor may emit (R70): literal runs of 1 to 127 bytes, repeat runs of 2 to 127. -/
abbrev Emitted (i : Instr) : Prop :=
  (∃ p : List Byte, i = .literal p ∧ 1 ≤ p.length ∧ p.length ≤ 127) ∨
    (∃ (n : BitVec 7) (v : Byte), i = .repeatRun n v ∧ 2 ≤ n.toNat)

end Sys2Proof.Machine
end

