-- ==== Sys2Proof/Certificates/Slice0/Obligations.lean ====
section
/-! DEFINITION. The statements for the provers, from the numbered rules of the spec. -/

open Sys2Proof Sys2Proof.Machine

/-! ## Encodings -/

/-- The words and control bytes of the opcode table, written out, decode to their rows (R61, R67, R71). -/
def Obligations.DecodeReadsTheTablesWords : Prop :=
  decodeCmd 0x00000000#32 = .nop ∧ decodeCmd 0x00000001#32 = .rasterize ∧
  decodeCmd 0x00000002#32 = .compress ∧ decodeCmd 0x000000FF#32 = .reset ∧
  decodeCmd 0x00000003#32 = .illegalCommand 0x03#8 0#24 ∧
  decodeCmd 0x000001FF#32 = .illegalCommand 0xFF#8 1#24 ∧
  decodeGroup [0x00#8, 0x5A#8] = .ok (.literal [0x5A#8], []) ∧
  decodeGroup [0x80#8, 0x07#8] = .ok (.reserved80, [0x07#8]) ∧
  decodeGroup [0xFF#8, 0x07#8, 0x01#8] = .ok (.repeatRun 0x7F#7 0x07#8, [0x01#8]) ∧
  decodeGroup [0x02#8, 0x01#8, 0x02#8] = .error .truncated ∧ decodeGroup [0xFF#8] = .error .truncated

/-- Decoding the encoding of a well-formed instruction gives it back, whatever follows a group (R60,
R61, R67, R68). -/
def Obligations.DecodeUndoesEncode : Prop :=
  ∀ i : Instr, i.WellFormed = true →
    match encode i with
    | .cmdw w => decodeCmd w = i
    | .ctrl bytes => ∀ rest, decodeGroup (bytes ++ rest) = .ok (i, rest)

/-- Encoding what was decoded gives back the word, or the bytes the group took; and what is decoded is
well-formed (R60, R61, R67, R68). -/
def Obligations.EncodeUndoesDecode : Prop :=
  (∀ w : Word, (decodeCmd w).WellFormed = true ∧ encode (decodeCmd w) = .cmdw w) ∧
  ∀ (z : List Byte) (i : Instr) (rest : List Byte), decodeGroup z = .ok (i, rest) →
    i.WellFormed = true ∧ ∃ bytes, encode i = .ctrl bytes ∧ bytes ++ rest = z

/-- R72: every CMD value is one of the four defined commands, each at its one value, or illegal. -/
def Obligations.EveryCmdValueIsDefinedOrIllegal : Prop :=
  ∀ w : Word,
    (decodeCmd w = .nop ↔ w = 0x00#32) ∧ (decodeCmd w = .rasterize ↔ w = 0x01#32) ∧
    (decodeCmd w = .compress ↔ w = 0x02#32) ∧ (decodeCmd w = .reset ↔ w = 0xFF#32) ∧
    ((∃ op zero, decodeCmd w = .illegalCommand op zero) ↔
      w.extractLsb' 8 24 ≠ 0 ∨
        (3 ≤ (w.extractLsb' 0 8).toNat ∧ (w.extractLsb' 0 8).toNat ≤ 254))

/-- R67: what each control byte announces and decodes to, and the control byte of each run. -/
def Obligations.ControlByteMap : Prop :=
  (∀ (c : Byte) (tail : List Byte), c.toNat ≤ 127 → c.toNat + 1 ≤ tail.length →
    decodeGroup (c :: tail) = .ok (.literal (tail.take (c.toNat + 1)), tail.drop (c.toNat + 1)) ∧
    ∀ s, exec (.literal (tail.take (c.toNat + 1))) s =
      .next { s with decOut := s.decOut ++ tail.take (c.toNat + 1) }) ∧
  (∀ tail : List Byte, decodeGroup (128#8 :: tail) = .ok (.reserved80, tail)) ∧
  (∀ (c v : Byte) (tail : List Byte), 129 ≤ c.toNat →
    ∃ n : BitVec 7, decodeGroup (c :: v :: tail) = .ok (.repeatRun n v, tail) ∧
      c.toNat = 128 + n.toNat ∧
      ∀ s, exec (.repeatRun n v) s =
        .next { s with decOut := s.decOut ++ List.replicate (257 - c.toNat) v }) ∧
  (∀ payload : List Byte, 1 ≤ payload.length → payload.length ≤ 128 →
    (literalControl payload).toNat = payload.length - 1) ∧
  (∀ k, 2 ≤ k → k ≤ 127 → (repeatRunControl k).toNat = 256 - (k - 1))

/-- R68: a LITERAL group takes c + 2 bytes of the stream, a REPEAT group 2. -/
def Obligations.GroupLengths : Prop :=
  ∀ (c : Byte) (tail rest : List Byte) (i : Instr), decodeGroup (c :: tail) = .ok (i, rest) →
    (c.toNat ≤ 127 → (c :: tail).length = (c.toNat + 2) + rest.length) ∧
    (129 ≤ c.toNat → (c :: tail).length = 2 + rest.length)

/-! ## Reset -/

/-- R34: after hardware reset every register reads 0 and no memory byte is written; RESET gives the
registers the same values and keeps the memories; and after reset any command is accepted. -/
def Obligations.ResetValues : Prop :=
  (∀ n, regRead State.reset.regs n = 0) ∧ (∀ m a, (State.reset.mem m).lookup a = none) ∧
  (∀ s : State, exec .reset s = .next { s with regs := State.reset.regs }) ∧
  (∀ w : Word, ∃ t, step { State.reset with pending := [.w32 .reg 0 w] } = .next t)

/-- The invariant holds right after reset, with the parameters log 1 chooses there. -/
def Obligations.InvariantHoldsAtReset : Prop := State.reset.Inv

/-- R160: hardware reset puts every register at its reset value and leaves every memory byte
unspecified (unwritten); RESET keeps the memories; after either STATUS reads 0 and any command is
accepted. The model's choices in the first clause, not R160's: hardware reset is an event between
accesses that keeps the host's remaining events and its replies (log 11), and it raises the count of
resets by one (log 16). -/
def Obligations.TheTwoResets : Prop :=
  ∀ (s : State),
    (∀ rest, s.Next .hardwareReset rest →
      step s = .next { s with pending := rest, regs := Regs.reset, im := [], rb := [], cb := [],
                              resets := s.resets + 1 }) ∧
    (∀ m a, (({ s with im := [], rb := [], cb := [] } : State).mem m).lookup a = none) ∧
    exec .reset s = .next { s with regs := Regs.reset } ∧ (∀ n, regRead Regs.reset n = 0) ∧
    (∀ i : Instr, i.isCommand = true → ∀ im rb cb k,
      ∃ t, exec i { s with regs := Regs.reset, im := im, rb := rb, cb := cb, resets := k } = .next t)

/-- A byte nobody has written since the hardware reset reads as the free value it holds, and a byte
somebody has written as itself (R33; the stable free value is the model's reading, log 2). -/
def Obligations.UnwrittenBytesHoldFreeValues : Prop :=
  ∀ (s : State) (m : MemId) (a : Nat) (rest : List Event),
    ((s.mem m).lookup a = none → readByte s m a = Config.unwrittenByte s.resets m a) ∧
    (∀ b, (s.mem m).lookup a = some b → readByte s m a = b) ∧
    (s.Next .hardwareReset rest → ∃ t, step s = .next t ∧
      readByte t m a = Config.unwrittenByte (s.resets + 1) m a)

/-! ## The step and the commands -/

/-- R130: a write of w to CMD runs the command w is, at the state past the event, by the pseudocode's
cases. -/
def Obligations.CmdWriteRunsTheCommand : Prop :=
  ∀ (s : State) (w : Word) (rest : List Event), s.Next (.w32 .reg 0 w) rest →
    step s = exec (decodeCmd w) { s with pending := rest } ∧
    decodeCmd w =
      if w.extractLsb' 8 24 ≠ 0 then .illegalCommand (w.extractLsb' 0 8) (w.extractLsb' 8 24)
      else if w.extractLsb' 0 8 = 0x00#8 then .nop
      else if w.extractLsb' 0 8 = 0x01#8 then .rasterize
      else if w.extractLsb' 0 8 = 0x02#8 then .compress
      else if w.extractLsb' 0 8 = 0xFF#8 then .reset
      else .illegalCommand (w.extractLsb' 0 8) (w.extractLsb' 8 24)

/-- A group of DECODE's stream runs at the state past its bytes, before any event of the host (the
model's choice, log 5). -/
def Obligations.GroupAtTheStreamRuns : Prop :=
  ∀ (s : State) (i : Instr) (rest : List Byte), decodeGroup s.decIn = .ok (i, rest) →
    step s = exec i { s with decIn := rest }

/-- With no input for DECODE and no event left the block is idle and a step changes nothing; and the
event that gives DECODE a stream starts it with no output (the model's choices, log 3 and log 5). -/
def Obligations.IdleAndDecoderStart : Prop :=
  (∀ s : State, s.decIn = [] → s.pending = [] → step s = .next s) ∧
  ∀ (s : State) (z : List Byte) (rest : List Event), s.Next (.runDecoder z) rest →
    step s = .next { s with pending := rest, decIn := z, decOut := [] }

/-- R131: NOP reports success and changes nothing else. -/
def Obligations.NopReportsSuccess : Prop :=
  decodeCmd 0x00#32 = .nop ∧
  ∀ s : State, exec .nop s = .next { s with regs := { s.regs with status := Status.success } } ∧
    statusWord Status.success = 0x00000001#32

/-- R132: RESET puts every register at 0, DONE too, and changes no memory; 0x000001FF is not RESET. -/
def Obligations.ResetClearsEveryRegister : Prop :=
  decodeCmd 0xFF#32 = .reset ∧ decodeCmd 0x000001FF#32 = .illegalCommand 0xFF#8 1#24 ∧
  (∀ s : State, exec .reset s = .next { s with regs := Regs.reset }) ∧
  (∀ n, regRead Regs.reset n = 0) ∧ Regs.reset.status.done = false

/-- R71, R145: a CMD write with an undefined opcode or a non-zero reserved bit changes STATUS alone, to
ILLEGAL_CMD. -/
def Obligations.IllegalCommandWritesOnlyStatus : Prop :=
  (∀ (s : State) (op : BitVec 8) (zero : BitVec 24),
    exec (.illegalCommand op zero) s =
      .next { s with regs := { s.regs with status := Status.failure 0x04#8 } }) ∧
  (∀ (s : State) (w : Word) (rest : List Event), s.Next (.w32 .reg 0 w) rest →
    (w.extractLsb' 8 24 ≠ 0 ∨
      (3 ≤ (w.extractLsb' 0 8).toNat ∧ (w.extractLsb' 0 8).toNat ≤ 254)) →
    step s = .next { s with pending := rest,
                            regs := { s.regs with status := Status.failure 0x04#8 } }) ∧
  statusWord (Status.failure 0x04#8) = 0x00000403#32

/-- What STATUS reads after each command (R13, R130, R141). -/
def Obligations.StatusAfterEachCommand : Prop :=
  ∀ s t : State,
    (exec .nop s = .next t → statusWord t.regs.status = 0x00000001#32) ∧
    (exec .rasterize s = .next t →
      statusWord t.regs.status = 0x00000001#32 ∨ statusWord t.regs.status = 0x00000103#32 ∨
        statusWord t.regs.status = 0x00000203#32) ∧
    (exec .compress s = .next t →
      statusWord t.regs.status = 0x00000001#32 ∨ statusWord t.regs.status = 0x00000303#32) ∧
    (exec .reset s = .next t → statusWord t.regs.status = 0) ∧
    (∀ op zero, exec (.illegalCommand op zero) s = .next t →
      statusWord t.regs.status = 0x00000403#32)

/-- R13, R34, R141: the fields of STATUS stand where the spec puts them and every other bit reads 0. -/
def Obligations.StatusFieldPlaces : Prop :=
  ∀ st : Status,
    (statusWord st).getLsbD 0 = st.done ∧ (statusWord st).getLsbD 1 = st.err ∧
    (statusWord st).extractLsb' 8 8 = st.errCode ∧ (statusWord st).extractLsb' 2 6 = 0 ∧
    (statusWord st).extractLsb' 16 16 = 0

/-- R9: in a configuration R6 allows, every command ends in a next state with success or with an error
and a code; there is no third outcome. -/
def Obligations.EveryCommandSucceedsOrFails : Prop :=
  ∀ (i : Instr) (s : State), i.isCommand = true → s.cfg.Valid →
    ∃ t, exec i s = .next t ∧
      ((t.regs.status.err = false ∧ t.regs.status.errCode = 0) ∨
        (t.regs.status.err = true ∧ t.regs.status.errCode ≠ 0))

/-- R147: a command that ends with an error leaves everything as it was but STATUS and the report
registers. -/
def Obligations.ErrorsArePrecise : Prop :=
  ∀ (i : Instr) (s t : State), i.isCommand = true → exec i s = .next t →
    t.regs.status.err = true →
    t = { s with regs := { s.regs with
            status := t.regs.status, errExpect := t.regs.errExpect,
            errActualW := t.regs.errActualW, errActualH := t.regs.errActualH } }

/-! ## RASTERIZE -/

/-- R84, R85: the luminance sum, its ranges, and the threshold as the exact comparison of the luminance
with one half, which no pixel equals; grey pixels up to 127 are on the dark side. -/
def Obligations.LuminanceThreshold : Prop :=
  (∀ p : Pixel,
    lumSum p = 55 * p.red.toNat + 182 * p.green.toNat + 18 * p.blue.toNat ∧ lumSum p ≤ 65025 ∧
    55 * p.red.toNat ≤ 14025 ∧ 182 * p.green.toNat ≤ 46410 ∧ 18 * p.blue.toNat ≤ 4590 ∧
    (lumSum p : ℚ) / (255 * (55 + 182 + 18)) ≠ 1 / 2 ∧
    (leHalf p = true ↔ (lumSum p : ℚ) / (255 * (55 + 182 + 18)) ≤ 1 / 2) ∧
    (leHalf p = true ↔ 2 * lumSum p ≤ 65025) ∧ (leHalf p = true ↔ lumSum p ≤ 32512)) ∧
  ∀ v : Byte, leHalf { red := v, green := v, blue := v } = true ↔ v.toNat ≤ 127

/-- R86: the two polarities are opposite, and DARK_GT_HALF is dark from 32513 on. -/
def Obligations.PolarityChoosesTheSide : Prop :=
  ∀ p : Pixel,
    (dark .darkLeHalf p = true ↔ lumSum p ≤ 32512) ∧ (dark .darkGtHalf p = true ↔ 32513 ≤ lumSum p)

/-- R142: neither axis matches. RASTERIZE reports the expected width and the actual size, whatever the
sizes are. -/
def Obligations.RasterizeDimMismatch : Prop :=
  ∀ s : State, s.regs.imgW ≠ s.regs.rasterW → s.regs.imgH ≠ s.regs.rasterW →
    ∃ t, exec .rasterize s = .next t ∧
      t = { s with regs := { s.regs with
              status := Status.failure 0x01#8, errExpect := s.regs.rasterW,
              errActualW := s.regs.imgW, errActualH := s.regs.imgH } } ∧
      regRead t.regs .errExpect = s.regs.rasterW.setWidth 32 ∧
      (regRead t.regs .errActual).extractLsb' 0 16 = s.regs.imgW ∧
      (regRead t.regs .errActual).extractLsb' 16 16 = s.regs.imgH

/-- R143: the orientation is chosen and the image or the raster buffer does not fit. -/
def Obligations.RasterizeCapacity : Prop :=
  ∀ (s : State) (oh : Nat),
    (s.regs.imgW = s.regs.rasterW ∧ oh = s.regs.imgH.toNat) ∨
      (s.regs.imgW ≠ s.regs.rasterW ∧ s.regs.imgH = s.regs.rasterW ∧ oh = s.regs.imgW.toNat) →
    (s.regs.imgW.toNat * s.regs.imgH.toNat > s.cfg.imCap ∨
      (s.regs.rasterW.toNat + 7) / 8 * oh > s.cfg.rbCap) →
    exec .rasterize s =
      .next { s with regs := { s.regs with status := Status.failure 0x02#8 } }

/-- RASTERIZE on the FLIP path (R81, R82, R87 to R91): the width matches and everything fits. Each bit
of the raster buffer is the darkness of the mirrored pixel, padding bits are 0, the result registers
are set, and nothing else changes. -/
def Obligations.RasterizeFlips : Prop :=
  ∀ (s : State) (w h : Nat), s.regs.imgW.toNat = w → s.regs.imgH.toNat = h →
    s.regs.rasterW.toNat = w → w * h ≤ s.cfg.imCap → (w + 7) / 8 * h ≤ s.cfg.rbCap →
    ∃ t, exec .rasterize s = .next t ∧
      t = { s with
            rb := t.rb
            regs := { s.regs with
              status := Status.success, stride := t.regs.stride, outH := s.regs.imgH,
              bufLen := t.regs.bufLen, path := 1 } } ∧
      t.regs.stride.toNat = (w + 7) / 8 ∧ t.regs.bufLen.toNat = (w + 7) / 8 * h ∧
      (∀ y j i, y < h → j < (w + 7) / 8 → i < 8 →
        (readByte t .rb (y * ((w + 7) / 8) + j)).getLsbD (7 - i) =
          (decide (8 * j + i < w) &&
            dark s.cfg.polarity (readPixel s (y * w + (w - 1 - (8 * j + i)))))) ∧
      ∀ a, (w + 7) / 8 * h ≤ a → readByte t .rb a = readByte s .rb a

/-- RASTERIZE on the TRANSPOSE path (R81, R83, R87 to R91): only the height matches and everything
fits. -/
def Obligations.RasterizeTransposes : Prop :=
  ∀ (s : State) (w h : Nat), s.regs.imgW.toNat = w → s.regs.imgH.toNat = h → w ≠ h →
    s.regs.rasterW.toNat = h → w * h ≤ s.cfg.imCap → (h + 7) / 8 * w ≤ s.cfg.rbCap →
    ∃ t, exec .rasterize s = .next t ∧
      t = { s with
            rb := t.rb
            regs := { s.regs with
              status := Status.success, stride := t.regs.stride, outH := s.regs.imgW,
              bufLen := t.regs.bufLen, path := 2 } } ∧
      t.regs.stride.toNat = (h + 7) / 8 ∧ t.regs.bufLen.toNat = (h + 7) / 8 * w ∧
      (∀ y j i, y < w → j < (h + 7) / 8 → i < 8 →
        (readByte t .rb (y * ((h + 7) / 8) + j)).getLsbD (7 - i) =
          (decide (8 * j + i < h) &&
            dark s.cfg.polarity (readPixel s ((8 * j + i) * w + y)))) ∧
      ∀ a, (h + 7) / 8 * w ≤ a → readByte t .rb a = readByte s .rb a

/-- R89: after a success the bits no pixel owns are 0; every byte below BUF_LEN is written in full,
whatever RB held; the bytes from BUF_LEN on are not written. -/
def Obligations.PaddingIsZeroAndRowsAreWhole : Prop :=
  ∀ s t : State, exec .rasterize s = .next t → t.regs.status.err = false →
    (∀ y j i, y < t.regs.outH.toNat → j < t.regs.stride.toNat → i < 8 →
      s.regs.rasterW.toNat ≤ 8 * j + i →
      (readByte t .rb (y * t.regs.stride.toNat + j)).getLsbD (7 - i) = false) ∧
    (∀ old : Memory, ∃ u, exec .rasterize { s with rb := old } = .next u ∧
      ∀ a, a < t.regs.bufLen.toNat →
        (t.rb.lookup a).isSome = true ∧ u.rb.lookup a = t.rb.lookup a) ∧
    ∀ a, t.regs.bufLen.toNat ≤ a → t.rb.lookup a = s.rb.lookup a

/-- R94: the geometry of a success: the stride is that of the raster width, the buffer length is
STRIDE * OUT_H with no wrap, no pixel is dropped or duplicated, and both index maps are bijections
between output and input pixel positions. -/
def Obligations.RasterGeometry : Prop :=
  (∀ s t : State, exec .rasterize s = .next t → t.regs.status.err = false →
    t.regs.stride.toNat = (s.regs.rasterW.toNat + 7) / 8 ∧
    t.regs.bufLen.toNat = t.regs.stride.toNat * t.regs.outH.toNat ∧
    t.regs.outH.toNat * s.regs.rasterW.toNat = s.regs.imgW.toNat * s.regs.imgH.toNat ∧
    ∃ o, orientedWidth o s.regs.imgW.toNat s.regs.imgH.toNat = s.regs.rasterW.toNat ∧
      orientedHeight o s.regs.imgW.toNat s.regs.imgH.toNat = t.regs.outH.toNat ∧
      t.regs.path = pathCode o) ∧
  ∀ (o : Orientation) (w h : Nat),
    (∀ x y, x < orientedWidth o w h → y < orientedHeight o w h → sourceIndex o w x y < w * h) ∧
    ∀ k, k < w * h → ∃ x y, x < orientedWidth o w h ∧ y < orientedHeight o w h ∧
      sourceIndex o w x y = k ∧
      ∀ x' y', x' < orientedWidth o w h → y' < orientedHeight o w h →
        sourceIndex o w x' y' = k → x' = x ∧ y' = y

/-- Under the other polarity every pixel bit is inverted and padding stays 0 (R86, R89, R166). -/
def Obligations.OtherPolarityInvertsPixels : Prop :=
  ∀ s t u : State, s.cfg.polarity = .darkLeHalf → exec .rasterize s = .next t →
    t.regs.status.err = false →
    exec .rasterize { s with cfg := { s.cfg with polarity := .darkGtHalf } } = .next u →
    u.regs = t.regs ∧
    ∀ y j i, y < t.regs.outH.toNat → j < t.regs.stride.toNat → i < 8 →
      (readByte u .rb (y * t.regs.stride.toNat + j)).getLsbD (7 - i) =
        (decide (8 * j + i < s.regs.rasterW.toNat) &&
          !(readByte t .rb (y * t.regs.stride.toNat + j)).getLsbD (7 - i))

/-- What RASTERIZE tells depends only on the dimension registers, the parameters and the image's own
pixels: never on a pixel at or beyond index W*H, on old RB contents, or on anything of COMPRESS (R80,
R93, R50). A pixel byte nobody has written counts as the free value it holds (the model's reading,
log 2). -/
def Obligations.RasterizeReadsOnlyTheImage : Prop :=
  ∀ s₁ s₂ t₁ t₂ : State, s₁.cfg = s₂.cfg → s₁.regs.imgW = s₂.regs.imgW →
    s₁.regs.imgH = s₂.regs.imgH → s₁.regs.rasterW = s₂.regs.rasterW →
    (∀ a, a < 3 * (s₁.regs.imgW.toNat * s₁.regs.imgH.toNat) →
      readByte s₁ .im a = readByte s₂ .im a) →
    exec .rasterize s₁ = .next t₁ → exec .rasterize s₂ = .next t₂ →
    t₁.regs.status = t₂.regs.status ∧
    (t₁.regs.status.err = false →
      t₁.regs.stride = t₂.regs.stride ∧ t₁.regs.outH = t₂.regs.outH ∧
      t₁.regs.bufLen = t₂.regs.bufLen ∧ t₁.regs.path = t₂.regs.path ∧
      ∀ a, a < t₁.regs.bufLen.toNat → readByte t₁ .rb a = readByte t₂ .rb a)

/-- Re-issuing RASTERIZE or COMPRESS right after it has run changes nothing (R48). -/
def Obligations.ReissuingChangesNothing : Prop :=
  ∀ s t : State,
    (exec .rasterize s = .next t → exec .rasterize t = .next t) ∧
    (exec .compress s = .next t → exec .compress t = .next t)

/-! ## COMPRESS -/

/-- R144: RANGE, and the empty input at the very end of RB. -/
def Obligations.CompressRange : Prop :=
  ∀ s : State,
    (s.cfg.rowMax < s.regs.rowLen.toNat ∨
      s.cfg.rbCap < s.regs.srcOff.toNat + s.regs.rowLen.toNat →
      exec .compress s =
        .next { s with regs := { s.regs with status := Status.failure 0x03#8 } }) ∧
    (s.regs.rowLen = 0 → s.regs.srcOff.toNat = s.cfg.rbCap →
      exec .compress s =
        .next { s with regs := { s.regs with status := Status.success, cmpLen := 0 } }) ∧
    (s.regs.rowLen = 0 → s.cfg.rbCap < s.regs.srcOff.toNat →
      exec .compress s =
        .next { s with regs := { s.regs with status := Status.failure 0x03#8 } })

/-- R112: in range and in a configuration R6 allows, COMPRESS writes the compressed row from CB[0], its
length and STATUS, and nothing else; the output never overflows CB. -/
def Obligations.CompressWritesTheRow : Prop :=
  ∀ s : State, s.cfg.Valid → s.regs.rowLen.toNat ≤ s.cfg.rowMax →
    s.regs.srcOff.toNat + s.regs.rowLen.toNat ≤ s.cfg.rbCap →
    ∃ (t : State) (row : List Byte), exec .compress s = .next t ∧
      row.length = s.regs.rowLen.toNat ∧
      (∀ p, p < s.regs.rowLen.toNat →
        row[p]? = some (readByte s .rb (s.regs.srcOff.toNat + p))) ∧
      t = { s with
            cb := t.cb
            regs := { s.regs with status := Status.success, cmpLen := t.regs.cmpLen } } ∧
      t.regs.cmpLen.toNat = (compressBytes row).length ∧ t.regs.cmpLen.toNat ≤ s.cfg.cbCap ∧
      (∀ k, k < t.regs.cmpLen.toNat → (compressBytes row)[k]? = some (readByte t .cb k)) ∧
      ∀ a, t.regs.cmpLen.toNat ≤ a → readByte t .cb a = readByte s .cb a

/-- R118: decoding the compressed bytes gives the input back, and DECODE does not refuse. -/
def Obligations.DecodeUndoesCompress : Prop :=
  ∀ b : List Byte, decodeStream (compressBytes b) = .ok b

/-- R111: the state machine and the closed form give the same bytes for every input. -/
def Obligations.StateMachineEqualsClosedForm : Prop :=
  ∀ b : List Byte, compressBytes b = compressClosed b

/-- The output length lies between 2 * ceil(n/127) and floor((4n + 2)/3); so it is 0 exactly for the
empty input (R115). -/
def Obligations.CompressedLengthBounds : Prop :=
  ∀ b : List Byte,
    2 * ((b.length + 126) / 127) ≤ (compressBytes b).length ∧
    (compressBytes b).length ≤ (4 * b.length + 2) / 3

/-- R70: the output is a sequence of groups whose control bytes lie in 0 to 126 or 130 to 255; a decoder
still accepts 127 and 129. -/
def Obligations.EmittedControlBytes : Prop :=
  (∀ b : List Byte, ∃ gs : List Instr, (∀ g ∈ gs, Emitted g) ∧
    compressBytes b = gs.flatMap (fun g => (encode g).bytes)) ∧
  (∀ g : Instr, Emitted g → ∃ c payload, (encode g).bytes = c :: payload ∧
    (c.toNat ≤ 126 ∨ 130 ≤ c.toNat)) ∧
  (∀ payload rest : List Byte, payload.length = 128 →
    decodeGroup (127#8 :: (payload ++ rest)) = .ok (.literal payload, rest)) ∧
  (∀ (v : Byte) (rest : List Byte),
    decodeGroup (129#8 :: v :: rest) = .ok (.repeatRun 1#7 v, rest) ∧ repeatCount 1#7 = 128)

/-- R101: the run state at the start, and what every step keeps of it. -/
def Obligations.RunStateBounds : Prop :=
  (runStart.mode = .lit ∧ runStart.lit = [] ∧ runStart.count = 0 ∧ runStart.out = []) ∧
  runStart.Good ∧ ∀ (c : Byte) (eq : Bool) (r : RunState), r.Good → (scanStep c eq r).Good

/-- What a flush emits: L - 1 and the L bytes; (257 - R) mod 256 and the value, 0x00 for R = 1; nothing
for an empty buffer (R107, R108). -/
def Obligations.FlushesEmit : Prop :=
  ∀ r : RunState,
    (r.lit = [] → flushLit r = r) ∧
    (1 ≤ r.lit.length → r.lit.length ≤ 127 → ∃ c : Byte, c.toNat = r.lit.length - 1 ∧
      flushLit r = { r with out := r.out ++ c :: r.lit, lit := [] }) ∧
    (1 ≤ r.count → r.count ≤ 127 → ∃ c : Byte,
      (r.count = 1 → c.toNat = 0) ∧ (2 ≤ r.count → c.toNat = 257 - r.count) ∧
      flushRep r = { r with out := r.out ++ [c, r.value], count := 0 })

/-- A uniform input of k bytes gives one pair `82 v` for each full 127 and one pair for the rest, `00 v`
when one byte is left over (R106, R108, R116). -/
def Obligations.UniformInput : Prop :=
  ∀ (v : Byte) (k : Nat),
    compressBytes (List.replicate k v) =
      (List.replicate (k / 127) [0x82#8, v]).flatten ++
        if k % 127 = 0 then [] else [BitVec.ofNat 8 ((257 - k % 127) % 256), v]

/-- Up to 127 bytes with no two adjacent bytes equal give one literal run (R104, R115, R116). -/
def Obligations.DistinctNeighboursInput : Prop :=
  ∀ b : List Byte, 1 ≤ b.length → b.length ≤ 127 → b.IsChain (fun x y => x ≠ y) →
    compressBytes b = BitVec.ofNat 8 (b.length - 1) :: b

/-- After a forced flush the mode stays REP: one more equal byte closes as a repeat run of 1, and the
bytes after it start a literal run of their own (R106; D15). -/
def Obligations.FreshRepeatRunAfterForcedFlush : Prop :=
  ∀ v x : Byte, x ≠ v →
    compressBytes (List.replicate 128 v ++ [x]) = [0x82#8, v, 0x00#8, v, 0x00#8, x]

/-- R114: the output depends only on the n input bytes; nothing is carried from an earlier COMPRESS. -/
def Obligations.CompressReadsOnlyTheRow : Prop :=
  ∀ s₁ s₂ t₁ t₂ : State, s₁.cfg = s₂.cfg → s₁.regs.rowLen = s₂.regs.rowLen →
    s₁.regs.rowLen.toNat ≤ s₁.cfg.rowMax →
    s₁.regs.srcOff.toNat + s₁.regs.rowLen.toNat ≤ s₁.cfg.rbCap →
    s₂.regs.srcOff.toNat + s₂.regs.rowLen.toNat ≤ s₂.cfg.rbCap →
    (∀ p, p < s₁.regs.rowLen.toNat →
      readByte s₁ .rb (s₁.regs.srcOff.toNat + p) = readByte s₂ .rb (s₂.regs.srcOff.toNat + p)) →
    exec .compress s₁ = .next t₁ → exec .compress s₂ = .next t₂ →
    t₁.regs.cmpLen = t₂.regs.cmpLen ∧ t₁.regs.status = t₂.regs.status ∧
    ∀ k, k < t₁.regs.cmpLen.toNat → readByte t₁ .cb k = readByte t₂ .cb k

/-- After a successful COMPRESS, DECODE of CB[0 .. CMP_LEN - 1] gives the row that was in RB (R112,
R118). -/
def Obligations.CompressedRowDecodes : Prop :=
  ∀ s t : State, exec .compress s = .next t → t.regs.status.err = false →
    decodeStream (readBytes t .cb 0 t.regs.cmpLen.toNat) =
      .ok (readBytes s .rb s.regs.srcOff.toNat s.regs.rowLen.toNat)

/-! ## The compressed stream -/

/-- LITERAL appends its payload, REPEAT its value 129 - n times, and nothing else changes (R67, R117). -/
def Obligations.GroupsAppendTheirBytes : Prop :=
  ∀ s : State,
    (∀ payload, exec (.literal payload) s = .next { s with decOut := s.decOut ++ payload }) ∧
    ∀ n v, exec (.repeatRun n v) s =
      .next { s with decOut := s.decOut ++ List.replicate (129 - n.toNat) v }

/-- What DECODE and the machine refuse (R69, R117): the reserved control byte, as an instruction and at the
head of a stream; a stream that ends inside its first group. That `step` refuses whatever events of the
host are pending is the model's choice: DECODE runs before the host (log 5). -/
def Obligations.RefusedGroups : Prop :=
  (∀ s : State, exec .reserved80 s = .refused .reservedControlByte) ∧
  (∀ (s : State) (tail : List Byte), s.decIn = 128#8 :: tail →
    step s = .refused .reservedControlByte ∧
    decodeStream (128#8 :: tail) = .error .reserved) ∧
  ∀ (s : State) (c : Byte) (tail : List Byte), s.decIn = c :: tail → c.toNat ≠ 128 →
    tail.length < (if c.toNat ≤ 127 then c.toNat + 1 else 1) →
    step s = .refused .truncatedGroup ∧ decodeStream (c :: tail) = .error .truncated

/-- R117: running the machine group by group is DECODE: it reaches the decoded bytes, or it is refused
for DECODE's reason. That all groups run before the host's pending events, which are left as they are,
is the model's choice (log 5). -/
def Obligations.RunningTheStreamIsDecode : Prop :=
  ∀ s : State,
    (∀ out, decodeStream s.decIn = .ok out →
      ∃ k, Sys2Proof.core.run k s = .next { s with decIn := [], decOut := s.decOut ++ out }) ∧
    (decodeStream s.decIn = .error .reserved →
      ∃ k, Sys2Proof.core.run k s = .refused Refusal.reservedControlByte) ∧
    (decodeStream s.decIn = .error .truncated →
      ∃ k, Sys2Proof.core.run k s = .refused Refusal.truncatedGroup) ∧
    decodeStream s.decIn ≠ .error .endOfStream

/-! ## The host's accesses -/

/-- R134: a host read of a 4-aligned offset of REG. -/
def Obligations.HostRegisterRead : Prop :=
  ∀ (s : State) (off : Nat) (rest : List Event), s.Next (.r32 .reg off) rest →
    off < 0x1000 → off % 4 = 0 →
    step s = .next { s with
      pending := rest
      replies := s.replies ++ [.word (
        if off = 0x04 then statusWord s.regs.status
        else if off = 0x08 then s.regs.imgW.setWidth 32
        else if off = 0x0C then s.regs.imgH.setWidth 32
        else if off = 0x10 then s.regs.rasterW.setWidth 32
        else if off = 0x14 then s.regs.srcOff
        else if off = 0x18 then s.regs.rowLen.setWidth 32
        else if off = 0x1C then s.regs.stride.setWidth 32
        else if off = 0x20 then s.regs.outH.setWidth 32
        else if off = 0x24 then s.regs.bufLen
        else if off = 0x28 then s.regs.cmpLen
        else if off = 0x2C then s.regs.path.setWidth 32
        else if off = 0x30 then s.regs.errExpect.setWidth 32
        else if off = 0x34 then s.regs.errActualH ++ s.regs.errActualW
        else 0)] }

/-- R133: a host write to a 4-aligned offset of REG: CMD is a command; an RW register takes the low bits;
an RO register or a reserved offset ignores it. -/
def Obligations.HostRegisterWrite : Prop :=
  ∀ (s : State) (off : Nat) (w : Word) (rest : List Event), s.Next (.w32 .reg off w) rest →
    off < 0x1000 → off % 4 = 0 →
    step s =
      if off = 0 then exec (decodeCmd w) { s with pending := rest }
      else .next { s with
        pending := rest
        regs :=
          if off = 0x08 then { s.regs with imgW := w.extractLsb' 0 16 }
          else if off = 0x0C then { s.regs with imgH := w.extractLsb' 0 16 }
          else if off = 0x10 then { s.regs with rasterW := w.extractLsb' 0 16 }
          else if off = 0x14 then { s.regs with srcOff := w }
          else if off = 0x18 then { s.regs with rowLen := w.extractLsb' 0 16 }
          else s.regs }

/-- R135: host accesses to the memories. A byte write to IM or RB stores the byte and changes no other;
a byte read returns the stored byte, or some byte where nobody has written, and changes nothing; a
write to CB and an access at or beyond a capacity are refused. -/
def Obligations.HostMemoryAccess : Prop :=
  ∀ (s : State) (m : MemId) (a : Nat) (rest : List Event),
    (∀ b, s.Next (.w8 (.mem m) a b) rest → m ≠ .cb → a < s.cfg.capacity m →
      ∃ t, step s = .next t ∧ t = { s with pending := rest, im := t.im, rb := t.rb } ∧
        readByte t m a = b ∧
        ∀ m' a', (m', a') ≠ (m, a) → readByte t m' a' = readByte s m' a') ∧
    (s.Next (.r8 (.mem m) a) rest → a < s.cfg.capacity m →
      ∃ b, step s = .next { s with pending := rest, replies := s.replies ++ [.byte b] } ∧
        ∀ x, (s.mem m).lookup a = some x → b = x) ∧
    (∀ b, s.Next (.w8 (.mem m) a b) rest → m = .cb ∨ s.cfg.capacity m ≤ a →
      ∃ r, step s = .refused r) ∧
    (s.Next (.r8 (.mem m) a) rest → s.cfg.capacity m ≤ a → ∃ r, step s = .refused r) ∧
    s.cfg.capacity .im = 3 * s.cfg.imCap ∧ s.cfg.capacity .rb = s.cfg.rbCap ∧
    s.cfg.capacity .cb = s.cfg.cbCap

/-- The accesses outside the interface are refused (R55; a memory access that is not 8 bits wide by R46
and D21); a write to an RO register and a read of CMD are not. That the event `otherWidth` is refused
whatever width it names, 8 and 32 included, is the model's choice (log 9). -/
def Obligations.RefusedHostAccesses : Prop :=
  ∀ (s : State) (e : Event) (rest : List Event), s.Next e rest →
    ((∃ off w, e = .w32 .reg off w ∧ (off % 4 ≠ 0 ∨ 0x1000 ≤ off)) ∨
      (∃ off, e = .r32 .reg off ∧ (off % 4 ≠ 0 ∨ 0x1000 ≤ off)) ∨
      (∃ off b, e = .w8 .reg off b) ∨ (∃ off, e = .r8 .reg off) ∨
      (∃ m a w, e = .w32 (.mem m) a w) ∨ (∃ m a, e = .r32 (.mem m) a) ∨
      (∃ sp bits a, e = .otherWidth sp bits a) ∨
      (∃ m a b, e = .w8 (.mem m) a b ∧ (m = .cb ∨ s.cfg.capacity m ≤ a)) ∨
      (∃ m a, e = .r8 (.mem m) a ∧ s.cfg.capacity m ≤ a) → ∃ r, step s = .refused r) ∧
    (∀ off w, off ∈ [0x04, 0x1C, 0x20, 0x24, 0x28, 0x2C, 0x30, 0x34] → e = .w32 .reg off w →
      step s = .next { s with pending := rest }) ∧
    (e = .r32 .reg 0 →
      step s = .next { s with pending := rest, replies := s.replies ++ [.word 0] })

/-- A host script's events are performed in order, and what a part of the order does to the machine does
not depend on what comes after it (R49, R75). -/
def Obligations.ScriptsRunInOrder : Prop :=
  ∀ (es rest : List Event) (s t : State), s.decIn = [] → s.pending = es ++ rest →
    (∀ e ∈ es, ∀ z, e ≠ .runDecoder z) → Sys2Proof.core.run es.length s = .next t →
    t.decIn = [] ∧ t.pending = rest ∧
    Sys2Proof.core.run es.length { s with pending := es } = .next { t with pending := [] }

/-- R74: the pseudo-statements and their expansions. -/
def Obligations.PseudoStatements : Prop :=
  stmtEvents .cmdNop = stmtEvents (.wr .cmd 0x00#32) ∧
  stmtEvents .cmdRasterize = stmtEvents (.wr .cmd 0x01#32) ∧
  stmtEvents .cmdCompress = stmtEvents (.wr .cmd 0x02#32) ∧
  stmtEvents .cmdReset = stmtEvents (.wr .cmd 0xFF#32) ∧
  (∀ k ps, stmtEvents (.pix k ps) =
    stmtEvents (.wrb .im (3 * k) (ps.flatMap (fun p => [p.red, p.green, p.blue])))) ∧
  ∀ m a n b, stmtEvents (.fill m a n b) = stmtEvents (.wrb m a (List.replicate n b))

/-! ## The whole machine -/

/-- R10: no step changes the parameters. -/
def Obligations.NoStepChangesTheParameters : Prop :=
  ∀ s t : State, step s = .next t → t.cfg = s.cfg

/-- No instruction of the table changes IM, the host's order, the replies or the count of resets; only
RASTERIZE writes RB and only COMPRESS writes CB; only RESET writes an RW register; the groups write
nothing but the decoded output (R54; log 10 for RESET). -/
def Obligations.WhatInstructionsLeaveAlone : Prop :=
  ∀ (i : Instr) (s t : State), exec i s = .next t →
    t.im = s.im ∧ t.resets = s.resets ∧ t.pending = s.pending ∧ t.replies = s.replies ∧
    t.decIn = s.decIn ∧ (i ≠ .rasterize → t.rb = s.rb) ∧ (i ≠ .compress → t.cb = s.cb) ∧
    (i ≠ .reset →
      t.regs.imgW = s.regs.imgW ∧ t.regs.imgH = s.regs.imgH ∧ t.regs.rasterW = s.regs.rasterW ∧
      t.regs.srcOff = s.regs.srcOff ∧ t.regs.rowLen = s.regs.rowLen) ∧
    (i.isCommand = false → t.regs = s.regs) ∧ (i.isCommand = true → t.decOut = s.decOut)

/-- Who writes each memory: the host and hardware reset IM; they and RASTERIZE RB; COMPRESS and hardware
reset CB, which the host never writes (R28, R29, R30). -/
def Obligations.MemoriesHaveTheirWriters : Prop :=
  ∀ s t : State, step s = .next t →
    (t.im ≠ s.im → s.NextIs (fun e => e = .hardwareReset ∨ ∃ a b, e = .w8 (.mem .im) a b)) ∧
    (t.rb ≠ s.rb → s.NextIs (fun e => e = .hardwareReset ∨ (∃ a b, e = .w8 (.mem .rb) a b) ∨
      e = .w32 .reg 0 0x01#32)) ∧
    (t.cb ≠ s.cb → s.NextIs (fun e => e = .hardwareReset ∨ e = .w32 .reg 0 0x02#32))

/-- Who writes each register: STATUS a write to CMD; the raster results and the mismatch report
RASTERIZE; CMP_LEN COMPRESS; an RW register the host's write to it; and the two resets (R13, R15 to
R26, R133). -/
def Obligations.RegistersHaveTheirWriters : Prop :=
  ∀ s t : State, step s = .next t →
    (t.regs.status ≠ s.regs.status →
      s.NextIs (fun e => e = .hardwareReset ∨ ∃ w, e = .w32 .reg 0 w)) ∧
    ((t.regs.stride ≠ s.regs.stride ∨ t.regs.outH ≠ s.regs.outH ∨
        t.regs.bufLen ≠ s.regs.bufLen ∨ t.regs.path ≠ s.regs.path ∨
        t.regs.errExpect ≠ s.regs.errExpect ∨ t.regs.errActualW ≠ s.regs.errActualW ∨
        t.regs.errActualH ≠ s.regs.errActualH) →
      s.NextIs (fun e => e = .hardwareReset ∨ e = .w32 .reg 0 0x01#32 ∨ e = .w32 .reg 0 0xFF#32)) ∧
    (t.regs.cmpLen ≠ s.regs.cmpLen →
      s.NextIs (fun e => e = .hardwareReset ∨ e = .w32 .reg 0 0x02#32 ∨ e = .w32 .reg 0 0xFF#32)) ∧
    (t.regs.imgW ≠ s.regs.imgW → s.NextIs (fun e => e = .hardwareReset ∨ e = .w32 .reg 0 0xFF#32 ∨
      ∃ w, e = .w32 .reg 0x08 w)) ∧
    (t.regs.imgH ≠ s.regs.imgH → s.NextIs (fun e => e = .hardwareReset ∨ e = .w32 .reg 0 0xFF#32 ∨
      ∃ w, e = .w32 .reg 0x0C w)) ∧
    (t.regs.rasterW ≠ s.regs.rasterW →
      s.NextIs (fun e => e = .hardwareReset ∨ e = .w32 .reg 0 0xFF#32 ∨
        ∃ w, e = .w32 .reg 0x10 w)) ∧
    (t.regs.srcOff ≠ s.regs.srcOff →
      s.NextIs (fun e => e = .hardwareReset ∨ e = .w32 .reg 0 0xFF#32 ∨
        ∃ w, e = .w32 .reg 0x14 w)) ∧
    (t.regs.rowLen ≠ s.regs.rowLen →
      s.NextIs (fun e => e = .hardwareReset ∨ e = .w32 .reg 0 0xFF#32 ∨
        ∃ w, e = .w32 .reg 0x18 w))

/-- In a configuration R6 allows no step faults (R9, R112; the fault is log 8). -/
def Obligations.NoStepFaults : Prop :=
  ∀ (s : State) (f : Fault), s.cfg.Valid → step s ≠ .fault f

/-- Every step keeps the invariant: the parameters stay allowed, STATUS stays one of its reports, PATH
is never 3, the result registers fit together, and the memories stay in canonical form inside their
capacities (R6, R20 to R24, R28 to R30, R141). -/
def Obligations.StepKeepsTheInvariant : Prop :=
  ∀ s t : State, s.Inv → step s = .next t → t.Inv
end

