-- ==== Sys2Proof/Laws/State.lean ====
section
/-! SUPPORT. What each update of the state does to each field, so that no proof unfolds a record. -/

namespace Sys2Proof.Machine

open Sys2Proof

variable (s : State)

@[simp] theorem State.setRegs_cfg (r : Regs) : (s.setRegs r).cfg = s.cfg := rfl

@[simp] theorem State.setRegs_regs (r : Regs) : (s.setRegs r).regs = r := rfl

@[simp] theorem State.setRegs_im (r : Regs) : (s.setRegs r).im = s.im := rfl

@[simp] theorem State.setRegs_rb (r : Regs) : (s.setRegs r).rb = s.rb := rfl

@[simp] theorem State.setRegs_cb (r : Regs) : (s.setRegs r).cb = s.cb := rfl

@[simp] theorem State.setRegs_resets (r : Regs) : (s.setRegs r).resets = s.resets := rfl

@[simp] theorem State.setRegs_pending (r : Regs) : (s.setRegs r).pending = s.pending := rfl

@[simp] theorem State.setRegs_replies (r : Regs) : (s.setRegs r).replies = s.replies := rfl

@[simp] theorem State.setRegs_decIn (r : Regs) : (s.setRegs r).decIn = s.decIn := rfl

@[simp] theorem State.setRegs_decOut (r : Regs) : (s.setRegs r).decOut = s.decOut := rfl

@[simp] theorem State.setStatus_cfg (st : Status) : (s.setStatus st).cfg = s.cfg := rfl

@[simp] theorem State.setStatus_regs (st : Status) : (s.setStatus st).regs = { s.regs with status := st } := rfl

@[simp] theorem State.setStatus_im (st : Status) : (s.setStatus st).im = s.im := rfl

@[simp] theorem State.setStatus_rb (st : Status) : (s.setStatus st).rb = s.rb := rfl

@[simp] theorem State.setStatus_cb (st : Status) : (s.setStatus st).cb = s.cb := rfl

@[simp] theorem State.setStatus_resets (st : Status) : (s.setStatus st).resets = s.resets := rfl

@[simp] theorem State.setStatus_pending (st : Status) : (s.setStatus st).pending = s.pending := rfl

@[simp] theorem State.setStatus_replies (st : Status) : (s.setStatus st).replies = s.replies := rfl

@[simp] theorem State.setStatus_decIn (st : Status) : (s.setStatus st).decIn = s.decIn := rfl

@[simp] theorem State.setStatus_decOut (st : Status) : (s.setStatus st).decOut = s.decOut := rfl

@[simp] theorem State.addReply_cfg (r : Reply) : (s.addReply r).cfg = s.cfg := rfl

@[simp] theorem State.addReply_regs (r : Reply) : (s.addReply r).regs = s.regs := rfl

@[simp] theorem State.addReply_im (r : Reply) : (s.addReply r).im = s.im := rfl

@[simp] theorem State.addReply_rb (r : Reply) : (s.addReply r).rb = s.rb := rfl

@[simp] theorem State.addReply_cb (r : Reply) : (s.addReply r).cb = s.cb := rfl

@[simp] theorem State.addReply_resets (r : Reply) : (s.addReply r).resets = s.resets := rfl

@[simp] theorem State.addReply_pending (r : Reply) : (s.addReply r).pending = s.pending := rfl

@[simp] theorem State.addReply_replies (r : Reply) : (s.addReply r).replies = s.replies ++ [r] := rfl

@[simp] theorem State.addReply_decIn (r : Reply) : (s.addReply r).decIn = s.decIn := rfl

@[simp] theorem State.addReply_decOut (r : Reply) : (s.addReply r).decOut = s.decOut := rfl

@[simp] theorem State.appendDecoded_cfg (bs : List Byte) : (s.appendDecoded bs).cfg = s.cfg := rfl

@[simp] theorem State.appendDecoded_regs (bs : List Byte) : (s.appendDecoded bs).regs = s.regs := rfl

@[simp] theorem State.appendDecoded_im (bs : List Byte) : (s.appendDecoded bs).im = s.im := rfl

@[simp] theorem State.appendDecoded_rb (bs : List Byte) : (s.appendDecoded bs).rb = s.rb := rfl

@[simp] theorem State.appendDecoded_cb (bs : List Byte) : (s.appendDecoded bs).cb = s.cb := rfl

@[simp] theorem State.appendDecoded_resets (bs : List Byte) : (s.appendDecoded bs).resets = s.resets := rfl

@[simp] theorem State.appendDecoded_pending (bs : List Byte) : (s.appendDecoded bs).pending = s.pending := rfl

@[simp] theorem State.appendDecoded_replies (bs : List Byte) : (s.appendDecoded bs).replies = s.replies := rfl

@[simp] theorem State.appendDecoded_decIn (bs : List Byte) : (s.appendDecoded bs).decIn = s.decIn := rfl

@[simp] theorem State.appendDecoded_decOut (bs : List Byte) : (s.appendDecoded bs).decOut = s.decOut ++ bs := rfl

@[simp] theorem succeed_cfg : (succeed s).cfg = s.cfg := rfl

@[simp] theorem succeed_regs : (succeed s).regs = { s.regs with status := { done := true, err := false, errCode := 0 } } := rfl

@[simp] theorem succeed_im : (succeed s).im = s.im := rfl

@[simp] theorem succeed_rb : (succeed s).rb = s.rb := rfl

@[simp] theorem succeed_cb : (succeed s).cb = s.cb := rfl

@[simp] theorem succeed_resets : (succeed s).resets = s.resets := rfl

@[simp] theorem succeed_pending : (succeed s).pending = s.pending := rfl

@[simp] theorem succeed_replies : (succeed s).replies = s.replies := rfl

@[simp] theorem succeed_decIn : (succeed s).decIn = s.decIn := rfl

@[simp] theorem succeed_decOut : (succeed s).decOut = s.decOut := rfl

@[simp] theorem raiseError_cfg (e : Error) : (raiseError e s).cfg = s.cfg := rfl

@[simp] theorem raiseError_regs (e : Error) : (raiseError e s).regs = { recordError e s.regs with status := { done := true, err := true, errCode := errorCode e } } := rfl

@[simp] theorem raiseError_im (e : Error) : (raiseError e s).im = s.im := rfl

@[simp] theorem raiseError_rb (e : Error) : (raiseError e s).rb = s.rb := rfl

@[simp] theorem raiseError_cb (e : Error) : (raiseError e s).cb = s.cb := rfl

@[simp] theorem raiseError_resets (e : Error) : (raiseError e s).resets = s.resets := rfl

@[simp] theorem raiseError_pending (e : Error) : (raiseError e s).pending = s.pending := rfl

@[simp] theorem raiseError_replies (e : Error) : (raiseError e s).replies = s.replies := rfl

@[simp] theorem raiseError_decIn (e : Error) : (raiseError e s).decIn = s.decIn := rfl

@[simp] theorem raiseError_decOut (e : Error) : (raiseError e s).decOut = s.decOut := rfl

@[simp] theorem hardwareReset_cfg : (hardwareReset s).cfg = s.cfg := rfl

@[simp] theorem hardwareReset_regs : (hardwareReset s).regs = Regs.reset := rfl

@[simp] theorem hardwareReset_im : (hardwareReset s).im = [] := rfl

@[simp] theorem hardwareReset_rb : (hardwareReset s).rb = [] := rfl

@[simp] theorem hardwareReset_cb : (hardwareReset s).cb = [] := rfl

@[simp] theorem hardwareReset_resets : (hardwareReset s).resets = s.resets + 1 := rfl

@[simp] theorem hardwareReset_pending : (hardwareReset s).pending = s.pending := rfl

@[simp] theorem hardwareReset_replies : (hardwareReset s).replies = s.replies := rfl

@[simp] theorem hardwareReset_decIn : (hardwareReset s).decIn = s.decIn := rfl

@[simp] theorem hardwareReset_decOut : (hardwareReset s).decOut = s.decOut := rfl

@[simp] theorem State.setMem_cfg (m : MemId) (v : Memory) : (s.setMem m v).cfg = s.cfg := by
  cases m <;> rfl

@[simp] theorem State.storeBytes_cfg (m : MemId) (a : Nat) (bs : List Byte) :
    (s.storeBytes m a bs).cfg = s.cfg := by
  simp [State.storeBytes]

@[simp] theorem State.setMem_regs (m : MemId) (v : Memory) : (s.setMem m v).regs = s.regs := by
  cases m <;> rfl

@[simp] theorem State.storeBytes_regs (m : MemId) (a : Nat) (bs : List Byte) :
    (s.storeBytes m a bs).regs = s.regs := by
  simp [State.storeBytes]

@[simp] theorem State.setMem_resets (m : MemId) (v : Memory) : (s.setMem m v).resets = s.resets := by
  cases m <;> rfl

@[simp] theorem State.storeBytes_resets (m : MemId) (a : Nat) (bs : List Byte) :
    (s.storeBytes m a bs).resets = s.resets := by
  simp [State.storeBytes]

@[simp] theorem State.setMem_pending (m : MemId) (v : Memory) : (s.setMem m v).pending = s.pending := by
  cases m <;> rfl

@[simp] theorem State.storeBytes_pending (m : MemId) (a : Nat) (bs : List Byte) :
    (s.storeBytes m a bs).pending = s.pending := by
  simp [State.storeBytes]

@[simp] theorem State.setMem_replies (m : MemId) (v : Memory) : (s.setMem m v).replies = s.replies := by
  cases m <;> rfl

@[simp] theorem State.storeBytes_replies (m : MemId) (a : Nat) (bs : List Byte) :
    (s.storeBytes m a bs).replies = s.replies := by
  simp [State.storeBytes]

@[simp] theorem State.setMem_decIn (m : MemId) (v : Memory) : (s.setMem m v).decIn = s.decIn := by
  cases m <;> rfl

@[simp] theorem State.storeBytes_decIn (m : MemId) (a : Nat) (bs : List Byte) :
    (s.storeBytes m a bs).decIn = s.decIn := by
  simp [State.storeBytes]

@[simp] theorem State.setMem_decOut (m : MemId) (v : Memory) : (s.setMem m v).decOut = s.decOut := by
  cases m <;> rfl

@[simp] theorem State.storeBytes_decOut (m : MemId) (a : Nat) (bs : List Byte) :
    (s.storeBytes m a bs).decOut = s.decOut := by
  simp [State.storeBytes]

@[simp] theorem State.setMem_im_im (v : Memory) : (s.setMem .im v).im = v := rfl

@[simp] theorem State.storeBytes_im_im (a : Nat) (bs : List Byte) : (s.storeBytes .im a bs).im = s.im.store a bs := rfl

@[simp] theorem State.setMem_im_rb (v : Memory) : (s.setMem .im v).rb = s.rb := rfl

@[simp] theorem State.storeBytes_im_rb (a : Nat) (bs : List Byte) : (s.storeBytes .im a bs).rb = s.rb := rfl

@[simp] theorem State.setMem_im_cb (v : Memory) : (s.setMem .im v).cb = s.cb := rfl

@[simp] theorem State.storeBytes_im_cb (a : Nat) (bs : List Byte) : (s.storeBytes .im a bs).cb = s.cb := rfl

@[simp] theorem State.setMem_rb_im (v : Memory) : (s.setMem .rb v).im = s.im := rfl

@[simp] theorem State.storeBytes_rb_im (a : Nat) (bs : List Byte) : (s.storeBytes .rb a bs).im = s.im := rfl

@[simp] theorem State.setMem_rb_rb (v : Memory) : (s.setMem .rb v).rb = v := rfl

@[simp] theorem State.storeBytes_rb_rb (a : Nat) (bs : List Byte) : (s.storeBytes .rb a bs).rb = s.rb.store a bs := rfl

@[simp] theorem State.setMem_rb_cb (v : Memory) : (s.setMem .rb v).cb = s.cb := rfl

@[simp] theorem State.storeBytes_rb_cb (a : Nat) (bs : List Byte) : (s.storeBytes .rb a bs).cb = s.cb := rfl

@[simp] theorem State.setMem_cb_im (v : Memory) : (s.setMem .cb v).im = s.im := rfl

@[simp] theorem State.storeBytes_cb_im (a : Nat) (bs : List Byte) : (s.storeBytes .cb a bs).im = s.im := rfl

@[simp] theorem State.setMem_cb_rb (v : Memory) : (s.setMem .cb v).rb = s.rb := rfl

@[simp] theorem State.storeBytes_cb_rb (a : Nat) (bs : List Byte) : (s.storeBytes .cb a bs).rb = s.rb := rfl

@[simp] theorem State.setMem_cb_cb (v : Memory) : (s.setMem .cb v).cb = v := rfl

@[simp] theorem State.storeBytes_cb_cb (a : Nat) (bs : List Byte) : (s.storeBytes .cb a bs).cb = s.cb.store a bs := rfl

@[simp] theorem State.mem_im : s.mem .im = s.im := rfl

@[simp] theorem State.mem_rb : s.mem .rb = s.rb := rfl

@[simp] theorem State.mem_cb : s.mem .cb = s.cb := rfl

@[simp] theorem Config.capacity_im (c : Config) : c.capacity .im = 3 * c.imCap := rfl

@[simp] theorem Config.capacity_rb (c : Config) : c.capacity .rb = c.rbCap := rfl

@[simp] theorem Config.capacity_cb (c : Config) : c.capacity .cb = c.cbCap := rfl

theorem State.mem_setMem_same (m : MemId) (v : Memory) : (s.setMem m v).mem m = v := by
  cases m <;> rfl

theorem State.mem_setMem_other (m m' : MemId) (v : Memory) (h : m' ≠ m) :
    (s.setMem m v).mem m' = s.mem m' := by
  cases m <;> cases m' <;> first | rfl | exact absurd rfl h

@[simp] theorem State.mem_setRegs (r : Regs) (m : MemId) : (s.setRegs r).mem m = s.mem m := by
  cases m <;> rfl

@[simp] theorem State.mem_setStatus (st : Status) (m : MemId) : (s.setStatus st).mem m = s.mem m := by
  cases m <;> rfl

@[simp] theorem succeed_mem (m : MemId) : (succeed s).mem m = s.mem m := by cases m <;> rfl

@[simp] theorem raiseError_mem (e : Error) (m : MemId) : (raiseError e s).mem m = s.mem m := by
  cases m <;> rfl

/-- Everything raising an error does (R146): STATUS and the report registers, nothing else. -/
theorem raiseError_eq (e : Error) :
    raiseError e s =
      { s with
        regs := { recordError e s.regs with
          status := { done := true, err := true, errCode := errorCode e } } } := rfl

/-- Everything a success report does (R130). -/
theorem succeed_eq :
    succeed s =
      { s with regs := { s.regs with status := { done := true, err := false, errCode := 0 } } } := rfl

/-- No error code is 0 and none is above 4 (R141). -/
theorem errorCode_range (e : Error) : 1 ≤ (errorCode e).toNat ∧ (errorCode e).toNat ≤ 4 := by
  cases e <;> simp [errorCode]

end Sys2Proof.Machine
end

