-- ==== Sys2Proof/Laws/Memory.lean ====
section
/-! SUPPORT. The memory laws: a read after a write, what a write leaves alone, and the canonical form. -/

namespace Sys2Proof.Machine

open Sys2Proof

theorem mem_cellsAt {c : Host.Cell} {a : Nat} {bs : List Byte} (h : c ∈ cellsAt a bs) :
    a ≤ c.1 ∧ c.1 < a + bs.length := by
  induction bs generalizing a with
  | nil => simp [cellsAt] at h
  | cons b bs ih =>
    simp only [cellsAt, List.mem_cons] at h
    rcases h with rfl | h
    · simp
    · have := ih h
      simp only [List.length_cons]
      omega

theorem cellsAt_sorted (a : Nat) (bs : List Byte) :
    (cellsAt a bs).Pairwise (fun x y => x.1 < y.1) := by
  induction bs generalizing a with
  | nil => simp [cellsAt]
  | cons b bs ih =>
    simp only [cellsAt, List.pairwise_cons]
    exact ⟨fun c hc => by have := mem_cellsAt hc; change a < c.1; omega, ih (a + 1)⟩

theorem lookup_cellsAt (a : Nat) (bs : List Byte) (x : Nat) :
    Memory.lookup (cellsAt a bs) x = if a ≤ x then bs[x - a]? else none := by
  induction bs generalizing a with
  | nil => simp [cellsAt, Memory.lookup]
  | cons b bs ih =>
    simp only [Memory.lookup, cellsAt, List.find?_cons] at ih ⊢
    by_cases hx : a = x
    · subst hx; simp
    · have hne : (a == x) = false := by simpa using hx
      simp only [hne]
      rw [ih]
      by_cases hle : a ≤ x
      · have h1 : a + 1 ≤ x := by omega
        have h2 : x - a = (x - (a + 1)) + 1 := by omega
        simp [hle, h1, h2]
      · have h1 : ¬ a + 1 ≤ x := by omega
        simp [hle, h1]

theorem Memory.lookup_append (m₁ m₂ : Memory) (x : Nat) :
    Memory.lookup (m₁ ++ m₂) x = (Memory.lookup m₁ x).or (Memory.lookup m₂ x) := by
  simp only [Memory.lookup, List.find?_append]
  cases List.find? (fun c => c.1 == x) m₁ <;> simp

/-- Filtering by the address keeps the listed bytes whose address passes and no others. -/
theorem Memory.lookup_filter (m : Memory) (p : Nat → Bool) (x : Nat) :
    Memory.lookup (m.filter (fun c => p c.1)) x = if p x then Memory.lookup m x else none := by
  induction m with
  | nil => simp [Memory.lookup]
  | cons c m ih =>
    simp only [Memory.lookup] at ih ⊢
    by_cases hc : c.1 = x
    · subst hc
      by_cases hp : p c.1 = true
      · simp [hp]
      · rw [List.filter_cons_of_neg (by simpa using hp), ih]
        simp [hp]
    · have hne : (c.1 == x) = false := by simpa using hc
      by_cases hp : p c.1 = true
      · rw [List.filter_cons_of_pos (by simpa using hp), List.find?_cons]
        simp only [hne, List.find?_cons]
        exact ih
      · rw [List.filter_cons_of_neg (by simpa using hp), ih]
        simp [hne]

/-- Everything a write does to the listed bytes: the stored range has the stored bytes, every other
address is as before. -/
theorem Memory.lookup_store (m : Memory) (a : Nat) (bs : List Byte) (x : Nat) :
    (m.store a bs).lookup x =
      if a ≤ x ∧ x < a + bs.length then bs[x - a]? else m.lookup x := by
  simp only [Memory.store, Memory.lookup_append, lookup_cellsAt]
  rw [Memory.lookup_filter m (fun y => decide (y < a)) x,
    Memory.lookup_filter m (fun y => decide (a + bs.length ≤ y)) x]
  by_cases h1 : x < a
  · have h2 : ¬ a ≤ x := by omega
    have h3 : ¬ a + bs.length ≤ x := by omega
    cases m.lookup x <;> simp [h1, h2, h3]
  · have h2 : a ≤ x := by omega
    by_cases h3 : a + bs.length ≤ x
    · have h4 : ¬ x < a + bs.length := by omega
      have h5 : bs[x - a]? = none := by simp only [List.getElem?_eq_none_iff]; omega
      simp [h1, h2, h3, h4, h5]
    · have h4 : x < a + bs.length := by omega
      simp [h1, h2, h3, h4]

theorem Memory.mem_store {m : Memory} {a : Nat} {bs : List Byte} {c : Host.Cell}
    (h : c ∈ m.store a bs) : c ∈ m ∨ (a ≤ c.1 ∧ c.1 < a + bs.length) := by
  simp only [Memory.store, List.mem_append, List.mem_filter] at h
  rcases h with (h | h) | h
  · exact .inl h.1
  · exact .inr (mem_cellsAt h)
  · exact .inl h.1

/-- A write keeps the canonical form. -/
theorem Memory.store_wf {m : Memory} (h : Memory.wf m) (a : Nat) (bs : List Byte) :
    Memory.wf (m.store a bs) := by
  refine ⟨?_, fun c _ => by simp [Memory.unlisted]⟩
  simp only [Memory.store, List.pairwise_append]
  refine ⟨⟨h.1.filter _, cellsAt_sorted a bs, ?_⟩, h.1.filter _, ?_⟩
  · intro x hx y hy
    have := mem_cellsAt hy
    simp only [List.mem_filter, decide_eq_true_eq] at hx
    omega
  · intro x hx y hy
    simp only [List.mem_filter, decide_eq_true_eq] at hy
    simp only [List.mem_append, List.mem_filter, decide_eq_true_eq] at hx
    rcases hx with hx | hx
    · omega
    · have := mem_cellsAt hx
      omega

/-- A write inside a capacity keeps every listed address below it. -/
theorem Memory.store_below {m : Memory} {cap : Nat} (h : Memory.below m cap) {a : Nat}
    {bs : List Byte} (hb : a + bs.length ≤ cap) : Memory.below (m.store a bs) cap := by
  intro c hc
  rcases Memory.mem_store hc with hc | hc
  · exact h c hc
  · omega

/-- Storing the same bytes at the same place twice is storing them once (R48). -/
theorem Memory.store_store (m : Memory) (a : Nat) (bs : List Byte) :
    (m.store a bs).store a bs = m.store a bs := by
  have hlo : ∀ c ∈ cellsAt a bs, ¬ c.1 < a := fun c hc => by have := mem_cellsAt hc; omega
  have hhi : ∀ c ∈ cellsAt a bs, ¬ a + bs.length ≤ c.1 := fun c hc => by
    have := mem_cellsAt hc; omega
  simp only [Memory.store, List.filter_append, List.filter_filter]
  have e1 : (cellsAt a bs).filter (fun c => decide (c.1 < a)) = [] := by
    simpa [List.filter_eq_nil_iff] using hlo
  have e2 : (cellsAt a bs).filter (fun c => decide (a + bs.length ≤ c.1)) = [] := by
    simpa [List.filter_eq_nil_iff] using hhi
  have e3 : m.filter (fun c => decide (c.1 < a) && decide (a + bs.length ≤ c.1)) = [] := by
    simp only [List.filter_eq_nil_iff, Bool.and_eq_true, decide_eq_true_eq]; omega
  have e4 : m.filter (fun c => decide (a + bs.length ≤ c.1) && decide (c.1 < a)) = [] := by
    simp only [List.filter_eq_nil_iff, Bool.and_eq_true, decide_eq_true_eq]; omega
  rw [e1, e2, e3, e4]
  simp

theorem reset_memories_wf (m : MemId) : Memory.wf (State.reset.mem m) := by
  cases m <;> simp [State.reset, State.mem, Memory.wf]

variable (s : State)

/-- Everything a store does to the bytes the machine reads: the stored range, and nothing else in any
memory. -/
theorem readByte_storeBytes (m m' : MemId) (a : Nat) (bs : List Byte) (x : Nat) :
    readByte (s.storeBytes m a bs) m' x =
      if m' = m ∧ a ≤ x ∧ x < a + bs.length then bs.getD (x - a) 0 else readByte s m' x := by
  by_cases hm : m' = m
  · subst hm
    simp only [readByte, State.storeBytes, State.mem_setMem_same, Memory.lookup_store,
      State.setMem_resets, true_and]
    by_cases hx : a ≤ x ∧ x < a + bs.length
    · have hlt : x - a < bs.length := by omega
      simp [hx, List.getElem?_eq_getElem hlt]
    · simp [hx]
  · simp [readByte, State.storeBytes, State.mem_setMem_other s m m' _ hm, hm]

@[simp] theorem readByte_setRegs (r : Regs) (m : MemId) (a : Nat) :
    readByte (s.setRegs r) m a = readByte s m a := by
  simp [readByte]

@[simp] theorem readByte_succeed (m : MemId) (a : Nat) :
    readByte (succeed s) m a = readByte s m a := by
  simp [readByte]

@[simp] theorem readByte_raiseError (e : Error) (m : MemId) (a : Nat) :
    readByte (raiseError e s) m a = readByte s m a := by
  simp [readByte]

@[simp] theorem readBytes_length (m : MemId) (a n : Nat) : (readBytes s m a n).length = n := by
  induction n generalizing a with
  | zero => rfl
  | succ n ih => simp [readBytes, ih]

theorem readBytes_getElem? (m : MemId) (a n p : Nat) :
    (readBytes s m a n)[p]? = if p < n then some (readByte s m (a + p)) else none := by
  induction n generalizing a p with
  | zero => simp [readBytes]
  | succ n ih =>
    cases p with
    | zero => simp [readBytes]
    | succ p =>
      simp only [readBytes, List.getElem?_cons_succ, ih]
      simp only [show a + 1 + p = a + (p + 1) by omega]
      by_cases h : p < n
      · simp [h]
      · simp [h]

/-- Two machines that read the same bytes read the same run of bytes. -/
theorem readBytes_congr {s t : State} {m : MemId} {a n : Nat}
    (h : ∀ p, p < n → readByte s m (a + p) = readByte t m (a + p)) :
    readBytes s m a n = readBytes t m a n := by
  apply List.ext_getElem?
  intro p
  simp only [readBytes_getElem?]
  by_cases hp : p < n
  · simp [hp, h p hp]
  · simp [hp]

end Sys2Proof.Machine
end

