-- ==== Sys2Proof/Laws/Compress.lean ====
section
/-! SUPPORT. What the pieces of COMPRESS do: the flushes, one step of the scan, and the outcomes of the
command. -/

namespace Sys2Proof.Machine

open Sys2Proof

variable (c : Byte) (r : RunState)

@[simp] theorem flushLit_mode : (flushLit r).mode = r.mode := by unfold flushLit; split <;> rfl
@[simp] theorem flushLit_value : (flushLit r).value = r.value := by unfold flushLit; split <;> rfl
@[simp] theorem flushLit_count : (flushLit r).count = r.count := by unfold flushLit; split <;> rfl

@[simp] theorem flushLit_lit : (flushLit r).lit = [] := by
  unfold flushLit
  split
  · rfl
  · exact List.eq_nil_of_length_eq_zero (by omega)

/-- FlushLit emits nothing for an empty buffer, else the control byte and the buffer (R107). -/
theorem flushLit_out :
    (flushLit r).out =
      r.out ++ if r.lit = [] then [] else BitVec.ofNat 8 (r.lit.length - 1) :: r.lit := by
  unfold flushLit
  split
  · have : r.lit ≠ [] := by intro h; simp [h] at *
    simp [this]
  · have : r.lit = [] := List.eq_nil_of_length_eq_zero (by omega)
    simp [this]

@[simp] theorem flushRep_mode : (flushRep r).mode = r.mode := rfl
@[simp] theorem flushRep_lit : (flushRep r).lit = r.lit := rfl
@[simp] theorem flushRep_value : (flushRep r).value = r.value := rfl
@[simp] theorem flushRep_count : (flushRep r).count = 0 := rfl
@[simp] theorem flushRep_out :
    (flushRep r).out = r.out ++ [repeatRunControl r.count, r.value] := rfl

/-- Everything a step of the scan can do (R103 to R106). -/
theorem scanStep_cases (eq : Bool) :
    (r.mode = .lit ∧ eq = false ∧ scanStep c eq r = consumeLit c r) ∨
    (r.mode = .lit ∧ eq = true ∧
      scanStep c eq r =
        consumeRep true { flushLit r with mode := .rep, value := c, count := 0 }) ∨
    (r.mode = .rep ∧ scanStep c eq r = consumeRep eq r) := by
  unfold scanStep enterRepeat
  cases hm : r.mode <;> cases eq <;> simp [hm]

theorem scan_cons (rest : List Byte) :
    scan (c :: rest) r = scan rest (scanStep c (nextEquals c rest) r) := rfl

@[simp] theorem nextEquals_nil : nextEquals c [] = false := rfl

theorem nextEquals_cons (d : Byte) (rest : List Byte) :
    nextEquals c (d :: rest) = decide (d = c) := rfl

theorem outOfRange_eq_false {cfg : Config} {off n : Nat} :
    outOfRange cfg off n = false ↔ n ≤ cfg.rowMax ∧ off + n ≤ cfg.rbCap := by
  simp [outOfRange]

@[simp] theorem inputRow_length (s : State) : (inputRow s).length = s.regs.rowLen.toNat := by
  simp [inputRow]

/-- Everything COMPRESS can do: RANGE, the fault of a configuration R6 does not allow, or the output
written with its length and STATUS. -/
theorem execCompress_cases (s : State) :
    (outOfRange s.cfg s.regs.srcOff.toNat s.regs.rowLen.toNat = true ∧
      execCompress s = .next (raiseError .range s)) ∨
    (outOfRange s.cfg s.regs.srcOff.toNat s.regs.rowLen.toNat = false ∧
      s.cfg.cbCap < (compressBytes (inputRow s)).length ∧
      execCompress s = .fault (.cbOverflow (compressBytes (inputRow s)).length)) ∨
    (outOfRange s.cfg s.regs.srcOff.toNat s.regs.rowLen.toNat = false ∧
      (compressBytes (inputRow s)).length ≤ s.cfg.cbCap ∧
      execCompress s = .next (writeCompressed (compressBytes (inputRow s)) s)) := by
  unfold execCompress
  cases outOfRange s.cfg s.regs.srcOff.toNat s.regs.rowLen.toNat
  · by_cases hl : (compressBytes (inputRow s)).length > s.cfg.cbCap
    · exact .inr (.inl ⟨rfl, hl, by simp [hl]⟩)
    · exact .inr (.inr ⟨rfl, by omega, by simp [hl]⟩)
  · exact .inl ⟨rfl, by simp⟩

end Sys2Proof.Machine
end

