-- ==== Sys2Proof/Laws/Raster.lean ====
section
/-! SUPPORT. What the pieces of RASTERIZE do: the packed byte, the raster buffer, and the outcomes of
the command. -/

namespace Sys2Proof.Machine

open Sys2Proof

/-- The orientation is FLIP exactly when the width matches, TRANSPOSE when only the height does. -/
theorem orientation_cases {w h rw : Nat} {o : Orientation} (ho : orientation w h rw = some o) :
    (o = .flip ∧ w = rw) ∨ (o = .transpose ∧ w ≠ rw ∧ h = rw) := by
  unfold orientation at ho
  split at ho
  · cases ho; exact .inl ⟨rfl, ‹_›⟩
  · split at ho
    · cases ho; exact .inr ⟨rfl, ‹_›, ‹_›⟩
    · cases ho

theorem orientation_eq_none {w h rw : Nat} : orientation w h rw = none ↔ w ≠ rw ∧ h ≠ rw := by
  unfold orientation
  split <;> simp_all

/-- The oriented width is the raster width on both paths (R94). -/
theorem orientedWidth_eq {w h rw : Nat} {o : Orientation} (ho : orientation w h rw = some o) :
    orientedWidth o w h = rw := by
  rcases orientation_cases ho with ⟨rfl, h⟩ | ⟨rfl, -, h⟩ <;> exact h

theorem orientedSize_eq (o : Orientation) (w h : Nat) :
    orientedWidth o w h * orientedHeight o w h = w * h := by
  cases o
  · rfl
  · exact Nat.mul_comm h w

theorem laneSum_le (bit : Nat → Bool) {k : Nat} (hk : k ≤ 8) : laneSum bit k ≤ 256 - 2 ^ (8 - k) := by
  induction k with
  | zero => simp [laneSum]
  | succ k ih =>
    have hk' : k < 8 := by omega
    have := ih (by omega)
    simp only [laneSum]
    interval_cases k <;> split <;> simp_all <;> omega

/-- A packed byte holds lane i in bit 7 - i (R88). -/
theorem packLanes_getLsbD (bit : Nat → Bool) {i : Nat} (hi : i < 8) :
    (packLanes bit).getLsbD (7 - i) = bit i := by
  simp only [packLanes, laneSum]
  generalize h0 : bit 0 = b0
  generalize h1 : bit 1 = b1
  generalize h2 : bit 2 = b2
  generalize h3 : bit 3 = b3
  generalize h4 : bit 4 = b4
  generalize h5 : bit 5 = b5
  generalize h6 : bit 6 = b6
  generalize h7 : bit 7 = b7
  interval_cases i <;> simp only [h0, h1, h2, h3, h4, h5, h6, h7] <;> clear h0 h1 h2 h3 h4 h5 h6 h7 <;>
    revert b0 b1 b2 b3 b4 b5 b6 b7 <;> decide

@[simp] theorem rasterBytes_length (s : State) (o : Orientation) (w ow oh : Nat) :
    (rasterBytes s o w ow oh).length = rowStride ow * oh := by
  simp [rasterBytes]

/-- Byte j of row y stands at index `y * stride + j` of the raster buffer (R43, R64). -/
theorem rasterBytes_at (s : State) (o : Orientation) (w ow oh : Nat) {y j : Nat} (hy : y < oh)
    (hj : j < rowStride ow) :
    (rasterBytes s o w ow oh)[y * rowStride ow + j]? = some (rasterByte s o w ow y j) := by
  have hpos : 0 < rowStride ow := by omega
  have hlt : y * rowStride ow + j < rowStride ow * oh := by
    calc y * rowStride ow + j < y * rowStride ow + rowStride ow := by omega
      _ = (y + 1) * rowStride ow := by ring
      _ ≤ oh * rowStride ow := Nat.mul_le_mul_right _ hy
      _ = rowStride ow * oh := Nat.mul_comm _ _
  have hdiv : (y * rowStride ow + j) / rowStride ow = y := by
    rw [Nat.mul_comm, Nat.mul_add_div hpos, Nat.div_eq_of_lt hj, Nat.add_zero]
  have hmod : (y * rowStride ow + j) % rowStride ow = j := by
    rw [Nat.mul_comm, Nat.mul_add_mod, Nat.mod_eq_of_lt hj]
  simp [rasterBytes, hlt, hdiv, hmod]

/-- Everything RASTERIZE can do: DIM_MISMATCH, CAPACITY, or success on one path. It answers a next
state always. -/
theorem execRasterize_cases (s : State) :
    (s.regs.imgW ≠ s.regs.rasterW ∧ s.regs.imgH ≠ s.regs.rasterW ∧
      execRasterize s =
        .next (raiseError (.dimMismatch s.regs.rasterW s.regs.imgW s.regs.imgH) s)) ∨
    ∃ o, orientation s.regs.imgW.toNat s.regs.imgH.toNat s.regs.rasterW.toNat = some o ∧
      execRasterize s = .next (rasterizeOriented o s.regs.imgW.toNat s.regs.imgH.toNat s) := by
  cases ho : orientation s.regs.imgW.toNat s.regs.imgH.toNat s.regs.rasterW.toNat with
  | none =>
    have h := orientation_eq_none.mp ho
    exact .inl ⟨fun e => h.1 (by rw [e]), fun e => h.2 (by rw [e]), by simp [execRasterize, ho]⟩
  | some o => exact .inr ⟨o, rfl, by simp [execRasterize, ho]⟩

/-- Everything RASTERIZE can do once the orientation is chosen: CAPACITY, or the raster buffer stored
in RB with the result registers and STATUS. -/
theorem rasterizeOriented_cases (o : Orientation) (w h : Nat) (s : State) :
    (overCapacity s.cfg w h (orientedWidth o w h) (orientedHeight o w h) = true ∧
      rasterizeOriented o w h s = raiseError .capacity s) ∨
    (overCapacity s.cfg w h (orientedWidth o w h) (orientedHeight o w h) = false ∧
      rasterizeOriented o w h s =
        succeed ((s.storeBytes .rb 0
          (rasterBytes s o w (orientedWidth o w h) (orientedHeight o w h))).setRegs
            (rasterResults s.regs o (orientedWidth o w h) (orientedHeight o w h)))) := by
  cases hc : overCapacity s.cfg w h (orientedWidth o w h) (orientedHeight o w h)
  · exact .inr ⟨rfl, by simp [rasterizeOriented, hc]⟩
  · exact .inl ⟨rfl, by simp [rasterizeOriented, hc]⟩

theorem overCapacity_eq_false {c : Config} {w h ow oh : Nat} :
    overCapacity c w h ow oh = false ↔ w * h ≤ c.imCap ∧ rowStride ow * oh ≤ c.rbCap := by
  simp [overCapacity]

end Sys2Proof.Machine
end

