-- ==== Sys2Proof/Laws/Step.lean ====
section
/-! SUPPORT. What a decoded group is, what an event of the host's order does, and what a step can do. -/

namespace Sys2Proof.Machine

open Sys2Proof

/-- Everything the group decoder can answer with an instruction (R66, R67). -/
theorem decodeGroup_cases {z : List Byte} {i : Instr} {rest : List Byte}
    (h : decodeGroup z = .ok (i, rest)) :
    (∃ c tail, z = c :: tail ∧ c.toNat ≤ 127 ∧ c.toNat + 1 ≤ tail.length ∧
      i = .literal (tail.take (c.toNat + 1)) ∧ rest = tail.drop (c.toNat + 1)) ∨
    (∃ c, z = c :: rest ∧ c.toNat = 128 ∧ i = .reserved80) ∨
    (∃ c v, z = c :: v :: rest ∧ 128 < c.toNat ∧ i = .repeatRun (c.extractLsb' 0 7) v) := by
  cases z with
  | nil => simp [decodeGroup] at h
  | cons c tail =>
    simp only [decodeGroup] at h
    split at h
    · split at h
      · cases h
      · simp only [Except.ok.injEq, Prod.mk.injEq] at h
        exact .inl ⟨c, tail, rfl, ‹_›, by omega, h.1.symm, h.2.symm⟩
    · split at h
      · simp only [Except.ok.injEq, Prod.mk.injEq] at h
        exact .inr (.inl ⟨c, by rw [h.2], ‹_›, h.1.symm⟩)
      · cases tail with
        | nil => simp at h
        | cons v tail =>
          simp only [Except.ok.injEq, Prod.mk.injEq] at h
          exact .inr (.inr ⟨c, v, by rw [h.2], by omega, h.1.symm⟩)

/-- A group's instruction is no command. -/
theorem decodeGroup_not_command {z : List Byte} {i : Instr} {rest : List Byte}
    (h : decodeGroup z = .ok (i, rest)) : i.isCommand = false := by
  rcases decodeGroup_cases h with ⟨_, _, _, _, _, rfl, _⟩ | ⟨_, _, _, rfl⟩ | ⟨_, _, _, _, rfl⟩ <;> rfl

/-- A word written to CMD is a command. -/
theorem decodeCmd_isCommand (w : Word) : (decodeCmd w).isCommand = true := by
  unfold decodeCmd
  repeat' split
  all_goals rfl

/-- The check of a REG access passes exactly for 4-aligned offsets below 0x1000 (R45). -/
theorem checkReg_eq_none {offset : Nat} : checkReg offset = none ↔ offset < 0x1000 ∧ offset % 4 = 0 := by
  unfold checkReg
  split
  · simp; omega
  · split
    · simp_all
    · simp_all

/-- The check of a memory access passes exactly inside the capacity (R45). -/
theorem checkMem_eq_none {c : Config} {m : MemId} {a : Nat} :
    checkMem c m a = none ↔ a < c.capacity m := by
  unfold checkMem
  split <;> simp_all

/-- Everything an event can complete as: a register write, a read, a byte stored in IM or RB, a
hardware reset, or DECODE given a stream. -/
theorem performEvent_done {e : Event} {s t : State} (h : performEvent e s = .done t) :
    (∃ a w, e = .w32 .reg a w ∧ a ≠ 0 ∧ checkReg a = none ∧ t = s.setRegs (regWriteAt s.regs a w)) ∨
    (∃ r, t = s.addReply r) ∨
    (∃ m a b, e = .w8 (.mem m) a b ∧ m ≠ .cb ∧ a < s.cfg.capacity m ∧ t = s.storeBytes m a [b]) ∨
    (e = .hardwareReset ∧ t = hardwareReset s) ∨
    (∃ z, e = .runDecoder z ∧ t = { s with decIn := z, decOut := [] }) := by
  rcases e with ⟨sp, a, w⟩ | ⟨sp, a⟩ | ⟨sp, a, b⟩ | ⟨sp, a⟩ | ⟨sp, bits, a⟩ | _ | z
  · cases sp with
    | reg =>
      simp only [performEvent, writeReg] at h
      cases hc : checkReg a with
      | some r => simp [hc] at h
      | none =>
        by_cases h0 : a = 0
        · simp [h0, regOffset, checkReg] at h
        · simp only [hc, regOffset, h0, if_false, Fetched.done.injEq] at h
          exact .inl ⟨a, w, rfl, h0, hc, h.symm⟩
    | mem m => simp [performEvent] at h
  · cases sp with
    | reg =>
      simp only [performEvent, readReg] at h
      split at h
      · cases h
      · simp only [Fetched.done.injEq] at h
        exact .inr (.inl ⟨_, h.symm⟩)
    | mem m => simp [performEvent] at h
  · cases sp with
    | reg => simp [performEvent] at h
    | mem m =>
      simp only [performEvent, writeMem] at h
      split at h
      · cases h
      · split at h
        · cases h
        · rename_i hm _ hc
          simp only [Fetched.done.injEq] at h
          exact .inr (.inr (.inl ⟨m, a, b, rfl, hm, checkMem_eq_none.mp hc, h.symm⟩))
  · cases sp with
    | reg => simp [performEvent] at h
    | mem m =>
      simp only [performEvent, readMem] at h
      split at h
      · cases h
      · simp only [Fetched.done.injEq] at h
        exact .inr (.inl ⟨_, h.symm⟩)
  · simp [performEvent] at h
  · simp only [performEvent, Fetched.done.injEq] at h
    exact .inr (.inr (.inr (.inl ⟨rfl, h.symm⟩)))
  · simp only [performEvent, Fetched.done.injEq] at h
    exact .inr (.inr (.inr (.inr ⟨z, rfl, h.symm⟩)))

/-- An event runs an instruction only as a write to CMD (R130). -/
theorem performEvent_run {e : Event} {s t : State} {i : Instr} (h : performEvent e s = .run i t) :
    ∃ w, e = .w32 .reg 0 w ∧ i = decodeCmd w ∧ t = s := by
  rcases e with ⟨sp, a, w⟩ | ⟨sp, a⟩ | ⟨sp, a, b⟩ | ⟨sp, a⟩ | ⟨sp, bits, a⟩ | _ | z
  · cases sp with
    | reg =>
      simp only [performEvent, writeReg] at h
      split at h
      · cases h
      · split at h
        · rename_i h0
          simp only [Fetched.run.injEq] at h
          exact ⟨w, by rw [h0]; rfl, h.1.symm, h.2.symm⟩
        · cases h
    | mem m => simp [performEvent] at h
  all_goals first
    | (simp [performEvent] at h; done)
    | (cases sp <;> simp [performEvent, readReg, writeMem, readMem] at h
       all_goals (repeat' split at h)
       all_goals simp at h)

/-- DECODE goes on while it has input left. -/
theorem fetchNext_group {s : State} (h : s.decIn ≠ []) : fetchNext s = fetchGroup s := by
  unfold fetchNext
  split
  · rfl
  · exact absurd ‹_› h

/-- With DECODE at its end, the host's next event is performed. -/
theorem fetchNext_event {s : State} {e : Event} {rest : List Event} (hz : s.decIn = [])
    (hp : s.pending = e :: rest) : fetchNext s = performEvent e { s with pending := rest } := by
  unfold fetchNext
  split
  · simp_all
  · split
    · simp_all
    · simp_all

/-- With neither, the block is idle. -/
theorem fetchNext_idle {s : State} (hz : s.decIn = []) (hp : s.pending = []) :
    fetchNext s = .done s := by
  unfold fetchNext
  split
  · simp_all
  · split
    · simp_all
    · rfl

/-- A group is run, or its stream ends inside it. -/
theorem fetchGroup_cases {s : State} (h : s.decIn ≠ []) :
    (∃ i rest, decodeGroup s.decIn = .ok (i, rest) ∧ fetchGroup s = .run i { s with decIn := rest }) ∨
    (decodeGroup s.decIn = .error .truncated ∧ fetchGroup s = .stop .truncatedGroup) := by
  unfold fetchGroup
  cases hd : decodeGroup s.decIn with
  | ok p => exact .inl ⟨p.1, p.2, rfl, rfl⟩
  | error e =>
    refine .inr ?_
    have : e = .truncated := by
      cases hz : s.decIn with
      | nil => exact absurd hz h
      | cons c tail =>
        simp only [hz, decodeGroup] at hd
        repeat' split at hd
        all_goals cases hd
        all_goals rfl
    subst this
    exact ⟨rfl, rfl⟩

/-- Everything a step that answers a next state can have done: a group of DECODE's stream, a command,
another event of the host's order, or nothing at an idle block. -/
theorem step_cases {s t : State} (h : step s = .next t) :
    (∃ i rest, decodeGroup s.decIn = .ok (i, rest) ∧ exec i { s with decIn := rest } = .next t) ∨
    (∃ w rest, s.decIn = [] ∧ s.pending = .w32 .reg 0 w :: rest ∧
      exec (decodeCmd w) { s with pending := rest } = .next t) ∨
    (∃ e rest, s.decIn = [] ∧ s.pending = e :: rest ∧
      performEvent e { s with pending := rest } = .done t) ∨
    (s.decIn = [] ∧ s.pending = [] ∧ t = s) := by
  unfold step at h
  by_cases hz : s.decIn = []
  · cases hp : s.pending with
    | nil =>
      rw [fetchNext_idle hz hp] at h
      cases h
      exact .inr (.inr (.inr ⟨hz, rfl, rfl⟩))
    | cons e rest =>
      rw [fetchNext_event hz hp] at h
      generalize hf : performEvent e { s with pending := rest } = f at h
      cases f with
      | run i u =>
        obtain ⟨w, rfl, rfl, rfl⟩ := performEvent_run hf
        exact .inr (.inl ⟨w, rest, hz, rfl, h⟩)
      | done u =>
        cases h
        exact .inr (.inr (.inl ⟨e, rest, hz, rfl, hf⟩))
      | stop r => cases h
  · rw [fetchNext_group hz] at h
    rcases fetchGroup_cases hz with ⟨i, rest, hd, hf⟩ | ⟨-, hf⟩
    · rw [hf] at h
      exact .inl ⟨i, rest, hd, h⟩
    · rw [hf] at h
      cases h

end Sys2Proof.Machine
end

