-- ==== Sys2Proof/Laws/Exec.lean ====
section
/-! SUPPORT. Everything an instruction that answers a next state can have done. -/

namespace Sys2Proof.Machine

open Sys2Proof

/-- Everything an instruction that answers a next state can have done: success with nothing else (NOP),
an error, the raster buffer and its registers (RASTERIZE), the compressed row (COMPRESS), every register
reset (RESET), or bytes appended to the decoded output (LITERAL, REPEAT). -/
theorem exec_cases {i : Instr} {s t : State} (h : exec i s = .next t) :
    (i = .nop ∧ t = succeed s) ∨
    (i.isCommand = true ∧ i ≠ .nop ∧ i ≠ .reset ∧ ∃ e, t = raiseError e s ∧
      ((∃ x y z, e = .dimMismatch x y z ∨ e = .capacity) → i = .rasterize) ∧
      (e = .range → i = .compress)) ∨
    (i = .rasterize ∧ ∃ o,
      orientation s.regs.imgW.toNat s.regs.imgH.toNat s.regs.rasterW.toNat = some o ∧
      overCapacity s.cfg s.regs.imgW.toNat s.regs.imgH.toNat
        (orientedWidth o s.regs.imgW.toNat s.regs.imgH.toNat)
        (orientedHeight o s.regs.imgW.toNat s.regs.imgH.toNat) = false ∧
      t = succeed ((s.storeBytes .rb 0
        (rasterBytes s o s.regs.imgW.toNat
          (orientedWidth o s.regs.imgW.toNat s.regs.imgH.toNat)
          (orientedHeight o s.regs.imgW.toNat s.regs.imgH.toNat))).setRegs
        (rasterResults s.regs o (orientedWidth o s.regs.imgW.toNat s.regs.imgH.toNat)
          (orientedHeight o s.regs.imgW.toNat s.regs.imgH.toNat)))) ∨
    (i = .compress ∧ outOfRange s.cfg s.regs.srcOff.toNat s.regs.rowLen.toNat = false ∧
      (compressBytes (inputRow s)).length ≤ s.cfg.cbCap ∧
      t = writeCompressed (compressBytes (inputRow s)) s) ∨
    (i = .reset ∧ t = s.setRegs Regs.reset) ∨
    (i.isCommand = false ∧ ∃ bs, t = s.appendDecoded bs) := by
  cases i with
  | nop => cases h; exact .inl ⟨rfl, rfl⟩
  | reset => cases h; exact .inr (.inr (.inr (.inr (.inl ⟨rfl, rfl⟩))))
  | illegalCommand op zero =>
    cases h
    exact .inr (.inl ⟨rfl, by simp, by simp, .illegalCmd, rfl, by simp, by simp⟩)
  | literal payload => cases h; exact .inr (.inr (.inr (.inr (.inr ⟨rfl, _, rfl⟩))))
  | reserved80 => cases h
  | repeatRun n v => cases h; exact .inr (.inr (.inr (.inr (.inr ⟨rfl, _, rfl⟩))))
  | rasterize =>
    change execRasterize s = .next t at h
    rcases execRasterize_cases s with ⟨-, -, he⟩ | ⟨o, ho, he⟩
    · rw [he] at h
      cases h
      exact .inr (.inl ⟨rfl, by simp, by simp, _, rfl, by simp, by simp⟩)
    · rw [he] at h
      cases h
      rcases rasterizeOriented_cases o s.regs.imgW.toNat s.regs.imgH.toNat s with ⟨-, hr⟩ | ⟨hc, hr⟩
      · exact .inr (.inl ⟨rfl, by simp, by simp, .capacity, hr, by simp, by simp⟩)
      · exact .inr (.inr (.inl ⟨rfl, o, ho, hc, hr⟩))
  | compress =>
    change execCompress s = .next t at h
    rcases execCompress_cases s with ⟨-, he⟩ | ⟨-, -, he⟩ | ⟨hr, hl, he⟩
    · rw [he] at h
      cases h
      exact .inr (.inl ⟨rfl, by simp, by simp, .range, rfl, by simp, by simp⟩)
    · rw [he] at h
      cases h
    · rw [he] at h
      cases h
      exact .inr (.inr (.inr (.inl ⟨rfl, hr, hl, rfl⟩)))

end Sys2Proof.Machine
end

