-- ==== Sys2Proof/Laws/Operands.lean ====
section
/-! SUPPORT. The register map (R11): each register at its one offset, and reads and writes of it. -/

namespace Sys2Proof.Machine

open Sys2Proof

@[simp] theorem regAt_regOffset (n : RegName) : regAt (regOffset n) = some n := by
  cases n <;> rfl

/-- A register stands at its own offset and nowhere else. -/
theorem regAt_eq_some {off : Nat} {n : RegName} : regAt off = some n ↔ off = regOffset n := by
  constructor
  · intro h
    unfold regAt at h
    split at h <;> cases h <;> rfl
  · rintro rfl
    exact regAt_regOffset n

/-- An offset is reserved when it is no register's. -/
theorem regAt_eq_none {off : Nat} : regAt off = none ↔ ∀ n, off ≠ regOffset n := by
  constructor
  · rintro h n rfl
    simp at h
  · intro h
    cases hr : regAt off with
    | none => rfl
    | some n => exact absurd (regAt_eq_some.mp hr) (h n)

/-- A write to a register other than an RW one changes nothing (R133). -/
theorem regWrite_readOnly (r : Regs) (w : Word) {n : RegName}
    (h : n ∉ [RegName.imgW, .imgH, .rasterW, .srcOff, .rowLen]) : regWrite r n w = r := by
  cases n <;> first | rfl | simp at h

/-- A register write never changes STATUS (R133). -/
@[simp] theorem regWriteAt_status (r : Regs) (off : Nat) (w : Word) :
    (regWriteAt r off w).status = r.status := by
  unfold regWriteAt
  split
  · rename_i n _
    cases n <;> rfl
  · rfl

end Sys2Proof.Machine
end

