-- ==== Sys2Proof/Laws/PerInstr.lean ====
section
/-! SUPPORT. Statements for all instructions, one lemma per constructor: the form and length of an
instruction's encoding (R60, R67, R68). -/

namespace Sys2Proof.Laws.EncodedForm

open Sys2Proof

/-- A command encodes as a word, a well-formed group as its control byte and exactly the payload that
byte announces. -/
def Statement (i : Instr) : Prop :=
  i.WellFormed = true →
    match encode i with
    | .cmdw _ => i.isCommand = true
    | .ctrl bytes =>
      i.isCommand = false ∧ ∃ c payload, bytes = c :: payload ∧ payload.length = payloadLength c

theorem nop : Statement .nop := fun _ => rfl

theorem rasterize : Statement .rasterize := fun _ => rfl

theorem compress : Statement .compress := fun _ => rfl

theorem reset : Statement .reset := fun _ => rfl

theorem illegalCommand (op : BitVec 8) (zero : BitVec 24) : Statement (.illegalCommand op zero) :=
  fun _ => rfl

theorem literal (payload : List Byte) : Statement (.literal payload) := by
  intro h
  simp only [Instr.WellFormed, decide_eq_true_eq] at h
  refine ⟨rfl, _, payload, rfl, ?_⟩
  have hc : (literalControl payload).toNat = payload.length - 1 := by
    simp only [literalControl, BitVec.toNat_ofNat]
    omega
  simp only [payloadLength, hc]
  split <;> omega

theorem reserved80 : Statement .reserved80 := fun _ => ⟨rfl, _, [], rfl, rfl⟩

theorem repeatRun (n : BitVec 7) (value : Byte) : Statement (.repeatRun n value) := by
  intro h
  simp only [Instr.WellFormed, decide_eq_true_eq] at h
  refine ⟨rfl, _, [value], rfl, ?_⟩
  have hc : payloadLength (repeatControl n) = 1 := by
    revert n
    decide
  exact hc.symm

end Sys2Proof.Laws.EncodedForm
end

