-- ==== Sys2Proof/Tests/Slice0.lean ====
section
/-! SUPPORT. The model's own tests, with expected results from the spec's encodings and vectors
(95_test_vectors.md), and for every statement with hypotheses a witness that meets them. -/

namespace Sys2Proof.Tests

open Sys2Proof Sys2Proof.Machine

/-! ## Decoding: words written out from the spec's encodings -/

/-- R61: OP 0x00. -/
theorem test_decode_nop : decodeCmd 0b00000000000000000000000000000000#32 = .nop := by decide
/-- R61: OP 0x01. -/
theorem test_decode_rasterize : decodeCmd 0b00000000000000000000000000000001#32 = .rasterize := by
  decide
/-- R61: OP 0x02. -/
theorem test_decode_compress : decodeCmd 0b00000000000000000000000000000010#32 = .compress := by
  decide
/-- R61: OP 0xFF. -/
theorem test_decode_reset : decodeCmd 0b00000000000000000000000011111111#32 = .reset := by decide
/-- R71: OP 0x03 and 0xFE; R132: 0x000001FF is no RESET. -/
theorem test_decode_illegal :
    decodeCmd 0b00000000000000000000000000000011#32 = .illegalCommand 0x03 0 ∧
    decodeCmd 0b00000000000000000000000011111110#32 = .illegalCommand 0xFE 0 ∧
    decodeCmd 0b00000000000000000000000111111111#32 = .illegalCommand 0xFF 1 ∧
    decodeCmd 0b10000000000000000000000000000000#32 = .illegalCommand 0 0x800000 := by decide
/-- R67: control byte 00000010 announces three literal bytes. -/
theorem test_decode_literal :
    decodeGroup [0b00000010#8, 0x81#8, 0x42#8, 0x07#8, 0xFF#8] =
      .ok (.literal [0x81#8, 0x42#8, 0x07#8], [0xFF#8]) := rfl
/-- R67: control byte 10000000. -/
theorem test_decode_reserved : decodeGroup [0b10000000#8, 0x07#8] = .ok (.reserved80, [0x07#8]) := rfl
/-- R67: control byte 10000010 is a repeat of 127, 11111111 of 2. -/
theorem test_decode_repeat :
    decodeGroup [0b10000010#8, 0x07#8] = .ok (.repeatRun 0b0000010#7 0x07#8, []) ∧
    repeatCount 0b0000010#7 = 127 ∧
    decodeGroup [0b11111111#8, 0x07#8] = .ok (.repeatRun 0b1111111#7 0x07#8, []) ∧
    repeatCount 0b1111111#7 = 2 := ⟨rfl, rfl, rfl, rfl⟩
/-- R117: streams that end inside a group (VD9, VD10). -/
theorem test_decode_truncated :
    decodeGroup [0x02#8, 0x01#8, 0x02#8] = .error .truncated ∧
    decodeGroup [0xFF#8] = .error .truncated := ⟨rfl, rfl⟩
/-- R61, R67: what the encoder writes. -/
theorem test_encode :
    encode .reset = .cmdw 0x000000FF#32 ∧ encode (.illegalCommand 0x01 1) = .cmdw 0x00000101#32 ∧
    encode (.literal [0x5A#8]) = .ctrl [0x00#8, 0x5A#8] ∧
    encode (.repeatRun 0b0111000#7 0xAA#8) = .ctrl [0xB8#8, 0xAA#8] := by decide
/-- The opcode table's numbering: 32-bit rows and 8-bit rows. -/
theorem test_table_words :
    decodeTableWord 32 0x01 = some .rasterize ∧ decodeTableWord 8 0x80 = some .reserved80 ∧
    decodeTableWord 8 0x00 = some (.literal [0#8]) ∧
    decodeTableWord 8 0x81 = some (.repeatRun 1#7 0#8) := by decide

/-! ## Well-formedness: each check refuses an ill-formed term -/

theorem smoke_illegal_fields : (Instr.illegalCommand 0x01 0).WellFormed = false := by decide
theorem smoke_literal_empty : (Instr.literal []).WellFormed = false := by decide
theorem smoke_literal_long : (Instr.literal (List.replicate 129 0#8)).WellFormed = false := by
  decide +kernel
theorem smoke_repeat_zero : (Instr.repeatRun 0#7 0x07#8).WellFormed = false := by decide
theorem smoke_config_cb : ¬ ({ Config.default with cbCap := 10922 } : Config).Valid := by decide
theorem smoke_memory_order : ¬ Memory.wf [(3, 0#8), (2, 0#8)] := by decide

/-! ## Small states -/

/-- Whether an outcome is a next state, and which. -/
def isNext : Host.Outcome State Fault Refusal → Bool
  | .next _ => true
  | .fault _ => false
  | .refused _ => false

def after : Host.Outcome State Fault Refusal → State
  | .next t => t
  | .fault _ => State.reset
  | .refused _ => State.reset

theorem eq_next_after {o : Host.Outcome State Fault Refusal} (h : isNext o = true) :
    o = .next (after o) := by
  cases o with
  | next t => rfl
  | fault f => cases h
  | refused r => cases h

/-- A machine about to perform one event. -/
def atEvent (e : Event) : State := { State.reset with pending := [e] }

def black : Pixel := { red := 0, green := 0, blue := 0 }
def white : Pixel := { red := 0xFF, green := 0xFF, blue := 0xFF }

/-- The 3 × 2 image of VR1 (K Wt Wt / K K Wt) with a raster width and a polarity. -/
def image (rasterW : BitVec 16) (polarity : Polarity) : State :=
  { State.reset with
    cfg := { Config.default with polarity := polarity }
    regs := { Regs.reset with imgW := 3, imgH := 2, rasterW := rasterW }
    im := cellsAt 0 ([black, white, white, black, black, white].flatMap pixelBytes) }

/-- A machine with a row of bytes at RB[off]. -/
def row (off : Nat) (bs : List Byte) : State :=
  { State.reset with
    regs := { Regs.reset with srcOff := BitVec.ofNat 32 off, rowLen := BitVec.ofNat 16 bs.length }
    rb := cellsAt off bs }

/-- A machine whose last command failed, as after VR20. -/
def failed : State :=
  { State.reset with
    regs := { Regs.reset with
      status := Status.failure 0x01, imgW := 3, imgH := 2, rasterW := 4, errExpect := 4,
      errActualW := 3, errActualH := 2 } }

/-- DECODE with a stream. -/
def stream (z : List Byte) : State := { State.reset with decIn := z }

/-! ## Instructions (vectors of 95_test_vectors.md) -/

/-- VH15: NOP clears the error and keeps the report. -/
theorem test_nop :
    let t := after (exec .nop failed)
    regRead t.regs .status = 0x00000001#32 ∧ regRead t.regs .errExpect = 0x00000004#32 ∧
      regRead t.regs .errActual = 0x00020003#32 := by decide

/-- VR11: FLIP with padding under DARK_GT_HALF gives `C0 80`. -/
theorem test_rasterize_flip :
    let t := after (exec .rasterize (image 3 .darkGtHalf))
    t.rb = [(0, 0xC0#8), (1, 0x80#8)] ∧ regRead t.regs .path = 1#32 ∧
      regRead t.regs .stride = 1#32 ∧ regRead t.regs .bufLen = 2#32 := by decide

/-- VR2: TRANSPOSE gives `C0 40 00`. -/
theorem test_rasterize_transpose :
    let t := after (exec .rasterize (image 2 .darkLeHalf))
    t.rb = [(0, 0xC0#8), (1, 0x40#8), (2, 0x00#8)] ∧ regRead t.regs .path = 2#32 ∧
      regRead t.regs .outH = 3#32 ∧ regRead t.regs .status = 0x00000001#32 := by decide

/-- VC10 and R119: the worked example. -/
theorem test_compress_example :
    let t := after (exec .compress
      (row 16 [0x00, 0x00, 0x00, 0xFF, 0xFF, 0x81, 0x42, 0x00, 0x00]))
    t.cb = cellsAt 0 [0xFE, 0x00, 0xFF, 0xFF, 0x01, 0x81, 0x42, 0xFF, 0x00] ∧
      regRead t.regs .cmpLen = 9#32 := by decide

/-- VC21: the mode stays REP after the forced flush. -/
theorem test_compress_forced_flush :
    compressBytes (List.replicate 128 0x07 ++ [0x09, 0x0A]) =
      [0x82, 0x07, 0x00, 0x07, 0x01, 0x09, 0x0A] := by decide +kernel

/-- VH7: RESET after an error. -/
theorem test_reset : (after (exec .reset failed)).regs = Regs.reset := by decide

/-- VH4, VH5: RASTERIZE's and RESET's opcodes with a reserved bit set are illegal. -/
theorem test_illegal :
    regRead (after (step (atEvent (.w32 .reg 0 0x00000101)))).regs .status = 0x00000403#32 ∧
    regRead (after (step (atEvent (.w32 .reg 0 0x000001FF)))).regs .status = 0x00000403#32 := by
  decide

/-- VD2: a literal run. -/
theorem test_literal :
    (after (step (stream [0x00, 0x5A]))).decOut = [0x5A#8] := by decide

/-- VD6: 128 repeats, which the encoder never emits. -/
theorem test_repeat :
    (after (step (stream [0x81, 0x07]))).decOut = List.replicate 128 0x07#8 := by decide

/-- VD8: the reserved control byte. -/
theorem test_reserved : step (stream [0x80, 0x07]) = .refused .reservedControlByte := rfl

/-- VD3: DECODE of the worked example's output. -/
theorem test_decode_stream :
    decodeStream [0xFE, 0x00, 0xFF, 0xFF, 0x01, 0x81, 0x42, 0xFF, 0x00] =
      .ok [0x00#8, 0x00#8, 0x00#8, 0xFF#8, 0xFF#8, 0x81#8, 0x42#8, 0x00#8, 0x00#8] := rfl

/-- 95_test_vectors.md 3.1: the two sums next to the threshold. -/
theorem test_threshold :
    lumSum { red := 0, green := 173, blue := 57 } = 32512 ∧
    dark .darkLeHalf { red := 0, green := 173, blue := 57 } = true ∧
    lumSum { red := 1, green := 173, blue := 54 } = 32513 ∧
    dark .darkLeHalf { red := 1, green := 173, blue := 54 } = false := by decide

/-! ## Host accesses -/

/-- VH8, VH10: a 16-bit field takes the low bits; STATUS ignores a write. -/
theorem test_register_write :
    (after (step (atEvent (.w32 .reg 0x08 0x12345678)))).regs.imgW = 0x5678#16 ∧
    (after (step (atEvent (.w32 .reg 0x04 0xFFFFFFFF)))).regs = Regs.reset := by decide

/-- VH12, VH13: CMD and reserved offsets read 0. -/
theorem test_register_read :
    (after (step (atEvent (.r32 .reg 0x00)))).replies = [.word 0#32] ∧
    (after (step (atEvent (.r32 .reg 0x40)))).replies = [.word 0#32] := by decide

/-- VH14: a byte of RB. -/
theorem test_memory_write :
    (after (step (atEvent (.w8 (.mem .rb) 5 0xAB)))).rb = [(5, 0xAB#8)] := by decide

/-- VH17: outside the interface. -/
theorem test_refused :
    step (atEvent (.w8 (.mem .cb) 0 0)) = .refused (.cbHostWrite 0) ∧
    step (atEvent (.r8 (.mem .im) 3145728)) = .refused (.outsideSpace (.mem .im) 3145728) ∧
    step (atEvent (.otherWidth .reg 16 0)) = .refused (.accessWidth .reg 16) ∧
    step (atEvent (.r32 .reg 0x06)) = .refused (.regMisaligned 0x06) := ⟨rfl, rfl, rfl, rfl⟩

/-- A placed instruction is the very next step's: VH1, and VR15 from reset. -/
theorem test_fetch_word :
    regRead (after (step (State.reset.withFetchWord 32 0x00))).regs .status = 1#32 ∧
    regRead (after (step (State.reset.withFetchWord 32 0x01))).regs .path = 1#32 ∧
    (after (step (State.reset.withFetchWord 8 0xFF))).decOut = [0#8, 0#8] := by decide

/-- R73, R74: the first statements of P1. -/
theorem test_script :
    scriptEvents [.wr .imgW 3, .cmdRasterize, .rd .status, .rdb .rb 0 2] =
      [.w32 .reg 0x08 3, .w32 .reg 0x00 1, .r32 .reg 0x04, .r8 (.mem .rb) 0, .r8 (.mem .rb) 1] := by
  decide

/-! ## Witnesses: the statements' hypotheses can be met -/

theorem witness_DecodeUndoesEncode :
    (Instr.illegalCommand 0x03 0).WellFormed = true ∧ (Instr.illegalCommand 0xFE 0).WellFormed = true ∧
    (Instr.illegalCommand 0 1).WellFormed = true ∧ (Instr.literal [0#8]).WellFormed = true ∧
    (Instr.literal (List.replicate 128 0#8)).WellFormed = true ∧
    (Instr.repeatRun 1#7 0#8).WellFormed = true ∧ (Instr.repeatRun 127#7 0#8).WellFormed = true := by
  decide +kernel

theorem witness_EncodeUndoesDecode :
    decodeGroup [0x00#8, 0x5A#8, 0x80#8] = .ok (.literal [0x5A#8], [0x80#8]) := rfl

theorem witness_ControlByteMap :
    ((0#8).toNat ≤ 127 ∧ (0#8).toNat + 1 ≤ [0x5A#8].length) ∧
    ((127#8).toNat ≤ 127 ∧ (127#8).toNat + 1 ≤ (List.replicate 128 0#8).length) ∧
    129 ≤ (129#8).toNat ∧ 129 ≤ (255#8).toNat ∧
    (1 ≤ [0#8].length ∧ [0#8].length ≤ 128) ∧
    (1 ≤ (List.replicate 128 0#8).length ∧ (List.replicate 128 0#8).length ≤ 128) := by
  decide +kernel

theorem witness_GroupLengths :
    (decodeGroup [0x00#8, 0x5A#8] = .ok (.literal [0x5A#8], []) ∧ (0x00#8).toNat ≤ 127) ∧
    decodeGroup [0x81#8, 0x07#8] = .ok (.repeatRun 1#7 0x07#8, []) ∧ 129 ≤ (0x81#8).toNat :=
  ⟨⟨rfl, by decide⟩, rfl, by decide⟩

theorem witness_TheTwoResets : (atEvent .hardwareReset).Next .hardwareReset [] := by decide

theorem witness_UnwrittenBytesHoldFreeValues :
    (failed.mem .im).lookup 0 = none ∧ ((row 0 [0x5A]).mem .rb).lookup 0 = some 0x5A#8 ∧
    (atEvent .hardwareReset).Next .hardwareReset [] := by decide

theorem witness_CmdWriteRunsTheCommand :
    (atEvent (.w32 .reg 0 0x02)).Next (.w32 .reg 0 0x02) [] := by decide

theorem witness_GroupAtTheStreamRuns :
    decodeGroup (stream [0x00, 0x5A]).decIn = .ok (.literal [0x5A#8], []) := rfl

theorem witness_IdleAndDecoderStart :
    (State.reset.decIn = [] ∧ State.reset.pending = []) ∧
    (atEvent (.runDecoder [0x00, 0x5A])).Next (.runDecoder [0x00, 0x5A]) [] := by decide

theorem witness_IllegalCommandWritesOnlyStatus :
    ((atEvent (.w32 .reg 0 0x03)).Next (.w32 .reg 0 0x03) [] ∧
      3 ≤ ((0x03#32).extractLsb' 0 8).toNat ∧ ((0x03#32).extractLsb' 0 8).toNat ≤ 254) ∧
    (atEvent (.w32 .reg 0 0x1FF)).Next (.w32 .reg 0 0x1FF) [] ∧
      (0x1FF#32).extractLsb' 8 24 ≠ 0 := by decide

theorem witness_StatusAfterEachCommand :
    (∃ t, exec .nop failed = .next t) ∧ (∃ t, exec .rasterize (image 3 .darkLeHalf) = .next t) ∧
    (∃ t, exec .compress (row 0 [0x5A]) = .next t) ∧ (∃ t, exec .reset failed = .next t) ∧
    ∃ t, exec (.illegalCommand 0x03 0) failed = .next t :=
  ⟨⟨_, eq_next_after (by decide)⟩, ⟨_, eq_next_after (by decide)⟩, ⟨_, eq_next_after (by decide)⟩,
    ⟨_, eq_next_after (by decide)⟩, ⟨_, eq_next_after (by decide)⟩⟩

theorem witness_EveryCommandSucceedsOrFails :
    Instr.isCommand .compress = true ∧ (row 0 [0x5A]).cfg.Valid := by decide

theorem witness_ErrorsArePrecise :
    Instr.isCommand .rasterize = true ∧
    exec .rasterize (image 4 .darkLeHalf) = .next (after (exec .rasterize (image 4 .darkLeHalf))) ∧
    (after (exec .rasterize (image 4 .darkLeHalf))).regs.status.err = true :=
  ⟨rfl, eq_next_after (by decide), by decide⟩

theorem witness_RasterizeDimMismatch :
    (image 4 .darkLeHalf).regs.imgW ≠ (image 4 .darkLeHalf).regs.rasterW ∧
    (image 4 .darkLeHalf).regs.imgH ≠ (image 4 .darkLeHalf).regs.rasterW := by decide

/-- VR23 for the image, VR26 for the raster buffer, and a transposed image over IM_CAP. -/
def bigImage (w h rw : BitVec 16) (rbCap : Nat) : State :=
  { State.reset with
    cfg := { Config.default with rbCap := rbCap }
    regs := { Regs.reset with imgW := w, imgH := h, rasterW := rw } }

theorem witness_RasterizeCapacity :
    ((bigImage 1024 1025 1024 262144).regs.imgW = (bigImage 1024 1025 1024 262144).regs.rasterW ∧
      (bigImage 1024 1025 1024 262144).regs.imgW.toNat *
        (bigImage 1024 1025 1024 262144).regs.imgH.toNat >
          (bigImage 1024 1025 1024 262144).cfg.imCap) ∧
    ((bigImage 8 5 8 4).regs.imgW = (bigImage 8 5 8 4).regs.rasterW ∧
      ((bigImage 8 5 8 4).regs.rasterW.toNat + 7) / 8 * (bigImage 8 5 8 4).regs.imgH.toNat >
        (bigImage 8 5 8 4).cfg.rbCap) ∧
    ((bigImage 1025 1024 1024 262144).regs.imgW ≠ (bigImage 1025 1024 1024 262144).regs.rasterW ∧
      (bigImage 1025 1024 1024 262144).regs.imgH = (bigImage 1025 1024 1024 262144).regs.rasterW ∧
      (bigImage 1025 1024 1024 262144).regs.imgW.toNat *
        (bigImage 1025 1024 1024 262144).regs.imgH.toNat >
          (bigImage 1025 1024 1024 262144).cfg.imCap) := by decide

theorem witness_RasterizeFlips :
    (image 3 .darkLeHalf).regs.imgW.toNat = 3 ∧ (image 3 .darkLeHalf).regs.imgH.toNat = 2 ∧
    (image 3 .darkLeHalf).regs.rasterW.toNat = 3 ∧ 3 * 2 ≤ (image 3 .darkLeHalf).cfg.imCap ∧
    (3 + 7) / 8 * 2 ≤ (image 3 .darkLeHalf).cfg.rbCap := by decide

theorem witness_RasterizeTransposes :
    (image 2 .darkLeHalf).regs.imgW.toNat = 3 ∧ (image 2 .darkLeHalf).regs.imgH.toNat = 2 ∧
    (3 : Nat) ≠ 2 ∧ (image 2 .darkLeHalf).regs.rasterW.toNat = 2 ∧
    3 * 2 ≤ (image 2 .darkLeHalf).cfg.imCap ∧ (2 + 7) / 8 * 3 ≤ (image 2 .darkLeHalf).cfg.rbCap := by
  decide

/-- A success of RASTERIZE with padding bits. -/
theorem witness_PaddingIsZeroAndRowsAreWhole :
    exec .rasterize (image 3 .darkLeHalf) = .next (after (exec .rasterize (image 3 .darkLeHalf))) ∧
    (after (exec .rasterize (image 3 .darkLeHalf))).regs.status.err = false ∧
    1 < (after (exec .rasterize (image 3 .darkLeHalf))).regs.outH.toNat ∧
    0 < (after (exec .rasterize (image 3 .darkLeHalf))).regs.stride.toNat ∧
    (image 3 .darkLeHalf).regs.rasterW.toNat ≤ 8 * 0 + 3 :=
  ⟨eq_next_after (by decide), by decide, by decide, by decide, by decide⟩

theorem witness_RasterGeometry :
    (exec .rasterize (image 2 .darkLeHalf) = .next (after (exec .rasterize (image 2 .darkLeHalf))) ∧
      (after (exec .rasterize (image 2 .darkLeHalf))).regs.status.err = false) ∧
    (2 < orientedWidth .flip 3 2 ∧ 1 < orientedHeight .flip 3 2) ∧
    (1 < orientedWidth .transpose 3 2 ∧ 2 < orientedHeight .transpose 3 2) ∧ 5 < 3 * 2 :=
  ⟨⟨eq_next_after (by decide), by decide⟩, by decide⟩

theorem witness_OtherPolarityInvertsPixels :
    (image 3 .darkLeHalf).cfg.polarity = .darkLeHalf ∧
    exec .rasterize (image 3 .darkLeHalf) = .next (after (exec .rasterize (image 3 .darkLeHalf))) ∧
    (after (exec .rasterize (image 3 .darkLeHalf))).regs.status.err = false ∧
    exec .rasterize (image 3 .darkGtHalf) = .next (after (exec .rasterize (image 3 .darkGtHalf))) ∧
    image 3 .darkGtHalf =
      { image 3 .darkLeHalf with
        cfg := { (image 3 .darkLeHalf).cfg with polarity := .darkGtHalf } } :=
  ⟨rfl, eq_next_after (by decide), by decide, eq_next_after (by decide), rfl⟩

/-- Two machines that agree on the image and differ beyond it and in RB. -/
def imageOther : State :=
  { image 3 .darkLeHalf with
    im := (image 3 .darkLeHalf).im ++ [(18, 0x11#8)], rb := [(0, 0x77#8)] }

theorem witness_RasterizeReadsOnlyTheImage :
    (image 3 .darkLeHalf).cfg = imageOther.cfg ∧
    (image 3 .darkLeHalf).regs.imgW = imageOther.regs.imgW ∧
    (image 3 .darkLeHalf).regs.imgH = imageOther.regs.imgH ∧
    (image 3 .darkLeHalf).regs.rasterW = imageOther.regs.rasterW ∧
    (∀ a, a < 3 * ((image 3 .darkLeHalf).regs.imgW.toNat * (image 3 .darkLeHalf).regs.imgH.toNat) →
      readByte (image 3 .darkLeHalf) .im a = readByte imageOther .im a) ∧
    exec .rasterize (image 3 .darkLeHalf) = .next (after (exec .rasterize (image 3 .darkLeHalf))) ∧
    exec .rasterize imageOther = .next (after (exec .rasterize imageOther)) :=
  ⟨rfl, rfl, rfl, rfl, by decide, eq_next_after (by decide), eq_next_after (by decide)⟩

theorem witness_ReissuingChangesNothing :
    exec .rasterize (image 3 .darkLeHalf) = .next (after (exec .rasterize (image 3 .darkLeHalf))) ∧
    exec .compress (row 0 [0x5A]) = .next (after (exec .compress (row 0 [0x5A]))) :=
  ⟨eq_next_after (by decide), eq_next_after (by decide)⟩

/-- Operands of COMPRESS alone (VC30, VC32, VC33, VC36). -/
def operands (off : BitVec 32) (len : BitVec 16) : State :=
  { State.reset with regs := { Regs.reset with srcOff := off, rowLen := len } }

theorem witness_CompressRange :
    (operands 0 8193).cfg.rowMax < (operands 0 8193).regs.rowLen.toNat ∧
    (operands 0xFFFFFFFF 1).cfg.rbCap <
      (operands 0xFFFFFFFF 1).regs.srcOff.toNat + (operands 0xFFFFFFFF 1).regs.rowLen.toNat ∧
    ((operands 262144 0).regs.rowLen = 0 ∧
      (operands 262144 0).regs.srcOff.toNat = (operands 262144 0).cfg.rbCap) ∧
    ((operands 262145 0).regs.rowLen = 0 ∧
      (operands 262145 0).cfg.rbCap < (operands 262145 0).regs.srcOff.toNat) := by decide

theorem witness_CompressWritesTheRow :
    ((operands 0 8192).cfg.Valid ∧
      (operands 0 8192).regs.rowLen.toNat ≤ (operands 0 8192).cfg.rowMax ∧
      (operands 0 8192).regs.srcOff.toNat + (operands 0 8192).regs.rowLen.toNat ≤
        (operands 0 8192).cfg.rbCap) ∧
    (operands 262140 4).regs.srcOff.toNat + (operands 262140 4).regs.rowLen.toNat ≤
        (operands 262140 4).cfg.rbCap := by decide

theorem witness_EmittedControlBytes :
    Emitted (.literal [0#8]) ∧ Emitted (.repeatRun 2#7 0#8) ∧ (List.replicate 128 0#8).length = 128 :=
  ⟨.inl ⟨_, rfl, by decide, by decide⟩, .inr ⟨_, _, rfl, by decide⟩, rfl⟩

theorem witness_RunStateBounds :
    runStart.Good ∧
    ({ runStart with lit := List.replicate 126 0#8 } : RunState).Good ∧
    ({ runStart with mode := .rep, count := 126 } : RunState).Good := by decide +kernel

theorem witness_FlushesEmit :
    (runStart.lit = []) ∧
    (1 ≤ ({ runStart with lit := List.replicate 127 0#8 } : RunState).lit.length ∧
      ({ runStart with lit := List.replicate 127 0#8 } : RunState).lit.length ≤ 127) ∧
    (1 ≤ ({ runStart with count := 1 } : RunState).count ∧
      ({ runStart with count := 127 } : RunState).count ≤ 127) := by decide +kernel

theorem witness_DistinctNeighboursInput :
    1 ≤ [0x00#8, 0x01#8, 0x00#8].length ∧ [0x00#8, 0x01#8, 0x00#8].length ≤ 127 ∧
    [0x00#8, 0x01#8, 0x00#8].IsChain (fun x y => x ≠ y) := by decide

theorem witness_FreshRepeatRunAfterForcedFlush : (0x09#8 : Byte) ≠ 0x07#8 := by decide

/-- Two machines with the same row at different offsets, and different CB. -/
def rowOther : State := { row 5 [0x07, 0x07, 0x09] with cb := [(0, 0x33#8)] }

theorem witness_CompressReadsOnlyTheRow :
    (row 0 [0x07, 0x07, 0x09]).cfg = rowOther.cfg ∧
    (row 0 [0x07, 0x07, 0x09]).regs.rowLen = rowOther.regs.rowLen ∧
    (row 0 [0x07, 0x07, 0x09]).regs.rowLen.toNat ≤ (row 0 [0x07, 0x07, 0x09]).cfg.rowMax ∧
    (row 0 [0x07, 0x07, 0x09]).regs.srcOff.toNat + (row 0 [0x07, 0x07, 0x09]).regs.rowLen.toNat ≤
      (row 0 [0x07, 0x07, 0x09]).cfg.rbCap ∧
    rowOther.regs.srcOff.toNat + rowOther.regs.rowLen.toNat ≤ rowOther.cfg.rbCap ∧
    (∀ p, p < (row 0 [0x07, 0x07, 0x09]).regs.rowLen.toNat →
      readByte (row 0 [0x07, 0x07, 0x09]) .rb
          ((row 0 [0x07, 0x07, 0x09]).regs.srcOff.toNat + p) =
        readByte rowOther .rb (rowOther.regs.srcOff.toNat + p)) ∧
    exec .compress (row 0 [0x07, 0x07, 0x09]) =
      .next (after (exec .compress (row 0 [0x07, 0x07, 0x09]))) ∧
    exec .compress rowOther = .next (after (exec .compress rowOther)) :=
  ⟨rfl, rfl, by decide, by decide, by decide, by decide, eq_next_after (by decide),
    eq_next_after (by decide)⟩

theorem witness_CompressedRowDecodes :
    exec .compress (row 0 [0x07, 0x07, 0x09]) =
      .next (after (exec .compress (row 0 [0x07, 0x07, 0x09]))) ∧
    (after (exec .compress (row 0 [0x07, 0x07, 0x09]))).regs.status.err = false :=
  ⟨eq_next_after (by decide), by decide⟩

theorem witness_RefusedGroups :
    (stream [0x80, 0x07]).decIn = 128#8 :: [0x07#8] ∧
    ((stream [0x02, 0x01, 0x02]).decIn = 0x02#8 :: [0x01#8, 0x02#8] ∧ (0x02#8).toNat ≠ 128 ∧
      [0x01#8, 0x02#8].length < (if (0x02#8).toNat ≤ 127 then (0x02#8).toNat + 1 else 1)) ∧
    ((stream [0x81]).decIn = 0x81#8 :: [] ∧ (0x81#8).toNat ≠ 128 ∧
      ([] : List Byte).length < (if (0x81#8).toNat ≤ 127 then (0x81#8).toNat + 1 else 1)) := by decide

theorem witness_RunningTheStreamIsDecode :
    decodeStream (stream [0x00, 0x5A]).decIn = .ok [0x5A#8] ∧
    decodeStream (stream [0x00, 0x5A, 0x80]).decIn = .error .reserved ∧
    decodeStream (stream [0x00, 0x5A, 0xFF]).decIn = .error .truncated := ⟨rfl, rfl, rfl⟩

theorem witness_HostRegisterRead :
    ((atEvent (.r32 .reg 0x34)).Next (.r32 .reg 0x34) [] ∧ 0x34 < 0x1000 ∧ 0x34 % 4 = 0) ∧
    (atEvent (.r32 .reg 0xFFC)).Next (.r32 .reg 0xFFC) [] ∧ 0xFFC < 0x1000 ∧ 0xFFC % 4 = 0 := by
  decide

theorem witness_HostRegisterWrite :
    ((atEvent (.w32 .reg 0x00 3)).Next (.w32 .reg 0x00 3) [] ∧ 0x00 < 0x1000 ∧ 0x00 % 4 = 0) ∧
    ((atEvent (.w32 .reg 0x18 3)).Next (.w32 .reg 0x18 3) [] ∧ 0x18 < 0x1000 ∧ 0x18 % 4 = 0) ∧
    (atEvent (.w32 .reg 0xFFC 3)).Next (.w32 .reg 0xFFC 3) [] ∧ 0xFFC < 0x1000 ∧ 0xFFC % 4 = 0 := by
  decide

theorem witness_HostMemoryAccess :
    ((atEvent (.w8 (.mem .im) 3145727 0xAB)).Next (.w8 (.mem .im) 3145727 0xAB) [] ∧
      MemId.im ≠ .cb ∧ 3145727 < (atEvent (.w8 (.mem .im) 3145727 0xAB)).cfg.capacity .im) ∧
    ((atEvent (.r8 (.mem .cb) 16383)).Next (.r8 (.mem .cb) 16383) [] ∧
      16383 < (atEvent (.r8 (.mem .cb) 16383)).cfg.capacity .cb) ∧
    ((atEvent (.w8 (.mem .cb) 0 0xAB)).Next (.w8 (.mem .cb) 0 0xAB) [] ∧
      (MemId.cb = .cb ∨ (atEvent (.w8 (.mem .cb) 0 0xAB)).cfg.capacity .cb ≤ 0)) ∧
    ((atEvent (.r8 (.mem .rb) 262144)).Next (.r8 (.mem .rb) 262144) [] ∧
      (atEvent (.r8 (.mem .rb) 262144)).cfg.capacity .rb ≤ 262144) := by decide

theorem witness_RefusedHostAccesses :
    ((atEvent (.w32 .reg 0x06 1)).Next (.w32 .reg 0x06 1) [] ∧ 0x06 % 4 ≠ 0) ∧
    ((atEvent (.r32 .reg 0x1000)).Next (.r32 .reg 0x1000) [] ∧ 0x1000 ≤ 0x1000) ∧
    (atEvent (.w8 .reg 0 1)).Next (.w8 .reg 0 1) [] ∧ (atEvent (.r8 .reg 0)).Next (.r8 .reg 0) [] ∧
    (atEvent (.w32 (.mem .im) 0 1)).Next (.w32 (.mem .im) 0 1) [] ∧
    (atEvent (.r32 (.mem .im) 0)).Next (.r32 (.mem .im) 0) [] ∧
    (atEvent (.otherWidth .reg 16 0)).Next (.otherWidth .reg 16 0) [] ∧
    (atEvent (.w8 (.mem .cb) 0 1)).Next (.w8 (.mem .cb) 0 1) [] ∧
    ((atEvent (.r8 (.mem .cb) 16384)).Next (.r8 (.mem .cb) 16384) [] ∧
      (atEvent (.r8 (.mem .cb) 16384)).cfg.capacity .cb ≤ 16384) ∧
    (atEvent (.w32 .reg 0x04 1)).Next (.w32 .reg 0x04 1) [] ∧
    (atEvent (.r32 .reg 0)).Next (.r32 .reg 0) [] := by decide

/-- A host about to write IMG_W and to read it back. -/
def twoEvents : State := { State.reset with pending := [.w32 .reg 0x08 3, .r32 .reg 0x08] }

theorem witness_ScriptsRunInOrder :
    twoEvents.decIn = [] ∧ twoEvents.pending = [.w32 .reg 0x08 3] ++ [.r32 .reg 0x08] ∧
    (∀ e ∈ [Event.w32 .reg 0x08 3], ∀ z, e ≠ .runDecoder z) ∧
    Sys2Proof.core.run [Event.w32 .reg 0x08 3].length twoEvents = .next (after (step twoEvents)) :=
  ⟨rfl, rfl, by simp, rfl⟩

theorem witness_NoStepChangesTheParameters : step twoEvents = .next (after (step twoEvents)) := rfl

theorem witness_WhatInstructionsLeaveAlone :
    exec .rasterize (image 3 .darkLeHalf) = .next (after (exec .rasterize (image 3 .darkLeHalf))) :=
  eq_next_after (by decide)

theorem witness_MemoriesHaveTheirWriters :
    (step (atEvent (.w8 (.mem .im) 0 1)) = .next (after (step (atEvent (.w8 (.mem .im) 0 1)))) ∧
      (after (step (atEvent (.w8 (.mem .im) 0 1)))).im ≠ (atEvent (.w8 (.mem .im) 0 1)).im) ∧
    (step ((image 3 .darkLeHalf).withFetchWord 32 1) =
        .next (after (step ((image 3 .darkLeHalf).withFetchWord 32 1))) ∧
      (after (step ((image 3 .darkLeHalf).withFetchWord 32 1))).rb ≠
        ((image 3 .darkLeHalf).withFetchWord 32 1).rb) ∧
    (step ((row 0 [0x5A]).withFetchWord 32 2) =
        .next (after (step ((row 0 [0x5A]).withFetchWord 32 2))) ∧
      (after (step ((row 0 [0x5A]).withFetchWord 32 2))).cb ≠
        ((row 0 [0x5A]).withFetchWord 32 2).cb) :=
  ⟨⟨eq_next_after (by decide), by decide⟩, ⟨eq_next_after (by decide), by decide⟩,
    ⟨eq_next_after (by decide), by decide⟩⟩

theorem witness_RegistersHaveTheirWriters :
    (step ((image 3 .darkLeHalf).withFetchWord 32 1) =
        .next (after (step ((image 3 .darkLeHalf).withFetchWord 32 1))) ∧
      (after (step ((image 3 .darkLeHalf).withFetchWord 32 1))).regs.status ≠
        ((image 3 .darkLeHalf).withFetchWord 32 1).regs.status ∧
      (after (step ((image 3 .darkLeHalf).withFetchWord 32 1))).regs.path ≠
        ((image 3 .darkLeHalf).withFetchWord 32 1).regs.path) ∧
    (step ((row 0 [0x5A]).withFetchWord 32 2) =
        .next (after (step ((row 0 [0x5A]).withFetchWord 32 2))) ∧
      (after (step ((row 0 [0x5A]).withFetchWord 32 2))).regs.cmpLen ≠
        ((row 0 [0x5A]).withFetchWord 32 2).regs.cmpLen) ∧
    (step (failed.withFetchWord 32 0xFF) = .next (after (step (failed.withFetchWord 32 0xFF))) ∧
      (after (step (failed.withFetchWord 32 0xFF))).regs.imgW ≠
        (failed.withFetchWord 32 0xFF).regs.imgW ∧
      (after (step (failed.withFetchWord 32 0xFF))).regs.imgH ≠
        (failed.withFetchWord 32 0xFF).regs.imgH ∧
      (after (step (failed.withFetchWord 32 0xFF))).regs.rasterW ≠
        (failed.withFetchWord 32 0xFF).regs.rasterW) ∧
    (step (atEvent (.w32 .reg 0x14 9)) = .next (after (step (atEvent (.w32 .reg 0x14 9)))) ∧
      (after (step (atEvent (.w32 .reg 0x14 9)))).regs.srcOff ≠
        (atEvent (.w32 .reg 0x14 9)).regs.srcOff) ∧
    (step (atEvent (.w32 .reg 0x18 9)) = .next (after (step (atEvent (.w32 .reg 0x18 9)))) ∧
      (after (step (atEvent (.w32 .reg 0x18 9)))).regs.rowLen ≠
        (atEvent (.w32 .reg 0x18 9)).regs.rowLen) :=
  ⟨⟨eq_next_after (by decide), by decide, by decide⟩, ⟨eq_next_after (by decide), by decide⟩,
    ⟨eq_next_after (by decide), by decide, by decide, by decide⟩,
    ⟨eq_next_after (by decide), by decide⟩, ⟨eq_next_after (by decide), by decide⟩⟩

theorem witness_NoStepFaults : twoEvents.cfg.Valid := by decide

theorem witness_StepKeepsTheInvariant :
    ((image 3 .darkLeHalf).withFetchWord 32 1).Inv ∧
    ∃ t, step ((image 3 .darkLeHalf).withFetchWord 32 1) = .next t :=
  ⟨⟨by decide, by decide, by decide⟩, ⟨_, eq_next_after (by decide)⟩⟩

end Sys2Proof.Tests
end

section
/-! PROOF. The length of the compressor's output (R112, R115): a budget of 4/3 byte for each input byte,
kept by every step of the scan. -/

namespace Sys2Proof.Machine

open Sys2Proof

/-- The budget after `n` input bytes, in thirds of a byte. In literal mode the buffered bytes are not
emitted yet. In repeat mode the 2 thirds a flushed literal may have overdrawn are already earned back by
the run's first byte, and each further byte of the run is all profit. -/
def RunState.WithinBudget (n : Nat) (r : RunState) : Prop :=
  (r.mode = .lit → 3 * r.out.length + 4 * r.lit.length ≤ 4 * n) ∧
  (r.mode = .rep → r.lit = [] ∧ 3 * r.out.length + 4 * (r.count - 1) + 2 ≤ 4 * n)

theorem RunState.withinBudget_lit {n : Nat} {r : RunState} (hm : r.mode = .lit) :
    r.WithinBudget n ↔ 3 * r.out.length + 4 * r.lit.length ≤ 4 * n := by
  simp [WithinBudget, hm]

theorem RunState.withinBudget_rep {n : Nat} {r : RunState} (hm : r.mode = .rep) :
    r.WithinBudget n ↔ r.lit = [] ∧ 3 * r.out.length + 4 * (r.count - 1) + 2 ≤ 4 * n := by
  simp [WithinBudget, hm]

theorem runStart_withinBudget : runStart.WithinBudget 0 :=
  (RunState.withinBudget_lit rfl).mpr (Nat.le_refl 0)

/-- A flushed literal costs one byte more than it holds (R107). -/
theorem flushLit_out_length (r : RunState) :
    (flushLit r).out.length =
      r.out.length + if r.lit.length = 0 then 0 else r.lit.length + 1 := by
  rw [flushLit_out]
  cases r.lit <;> simp

/-- Flushing the literal of a state inside its budget overdraws it by at most 2 thirds of a byte. -/
theorem flushLit_out_length_le {n : Nat} {r : RunState} (h : r.WithinBudget n) :
    3 * (flushLit r).out.length ≤ 4 * n + 2 := by
  rw [flushLit_out_length]
  cases hm : r.mode with
  | lit =>
    have := (RunState.withinBudget_lit hm).mp h
    split <;> omega
  | rep =>
    obtain ⟨hl, hb⟩ := (RunState.withinBudget_rep hm).mp h
    simp only [hl, List.length_nil, if_true]
    omega

/-- The byte that brings the literal buffer to 127 flushes it (R106). -/
theorem consumeLit_eq (c : Byte) (r : RunState) :
    consumeLit c r =
      if r.lit.length + 1 = 127 then flushLit { r with lit := r.lit ++ [c] }
      else { r with lit := r.lit ++ [c] } := by
  simp [consumeLit]

/-- A run's last byte closes it; the 127th flushes it and the mode stays (R105, R106). -/
theorem consumeRep_eq (eq : Bool) (r : RunState) :
    consumeRep eq r =
      if eq = false then { flushRep { r with count := r.count + 1 } with mode := .lit }
      else if r.count + 1 = 127 then flushRep { r with count := r.count + 1 }
      else { r with count := r.count + 1 } := by
  simp [consumeRep]

theorem consumeLit_withinBudget {n : Nat} {r : RunState} (c : Byte) (hm : r.mode = .lit)
    (h : r.WithinBudget n) : (consumeLit c r).WithinBudget (n + 1) := by
  have hb := (RunState.withinBudget_lit hm).mp h
  rw [consumeLit_eq]
  split
  · next hfull =>
    have hout := flushLit_out_length { r with lit := r.lit ++ [c] }
    simp only [List.length_append, List.length_singleton, hfull, OfNat.ofNat_ne_zero, if_false] at hout
    rw [RunState.withinBudget_lit (by simpa using hm), hout, flushLit_lit, List.length_nil]
    omega
  · refine (RunState.withinBudget_lit (r := { r with lit := r.lit ++ [c] }) hm).mpr ?_
    simp only [List.length_append, List.length_singleton]
    omega

/-- Repeat accumulation of one byte: at a run's first byte the budget is what flushing a literal leaves,
and a run closed by its first byte started after a forced flush. -/
theorem consumeRep_withinBudget {n : Nat} {r : RunState} (eq : Bool) (hm : r.mode = .rep)
    (hl : r.lit = []) (hb : 3 * r.out.length + 4 * r.count ≤ 4 * n + 2)
    (hclose : eq = false → 3 * r.out.length + 2 ≤ 4 * n) :
    (consumeRep eq r).WithinBudget (n + 1) := by
  rw [consumeRep_eq]
  split
  · next heq =>
    have := hclose heq
    rw [RunState.withinBudget_lit rfl]
    simp only [flushRep_out, flushRep_lit, hl, List.length_append, List.length_cons, List.length_nil]
    omega
  · split
    · rw [RunState.withinBudget_rep (by simpa using hm)]
      simp only [flushRep_out, flushRep_lit, flushRep_count, List.length_append, List.length_cons,
        List.length_nil]
      exact ⟨hl, by omega⟩
    · refine (RunState.withinBudget_rep (r := { r with count := r.count + 1 }) hm).mpr ⟨hl, ?_⟩
      simp only [Nat.add_sub_cancel]
      omega

/-- Every step of the scan stays inside the budget of one more byte (R103 to R106). -/
theorem scanStep_withinBudget {n : Nat} {r : RunState} (c : Byte) (eq : Bool)
    (h : r.WithinBudget n) : (scanStep c eq r).WithinBudget (n + 1) := by
  rcases scanStep_cases c r eq with ⟨hm, -, he⟩ | ⟨-, -, he⟩ | ⟨hm, he⟩
  · rw [he]
    exact consumeLit_withinBudget c hm h
  · rw [he]
    exact consumeRep_withinBudget true rfl (by simp) (by simpa using flushLit_out_length_le h)
      (by simp)
  · obtain ⟨hl, hb⟩ := (RunState.withinBudget_rep hm).mp h
    rw [he]
    exact consumeRep_withinBudget eq hm hl (by omega) (fun _ => by omega)

theorem scan_withinBudget (b : List Byte) {n : Nat} {r : RunState} (h : r.WithinBudget n) :
    (scan b r).WithinBudget (n + b.length) := by
  induction b generalizing n r with
  | nil => exact h
  | cons c rest ih =>
    rw [scan_cons, List.length_cons, show n + (rest.length + 1) = n + 1 + rest.length by omega]
    exact ih (scanStep_withinBudget c _ h)

/-- The upper bound of R115: at most `(4n + 2) / 3` bytes for `n` input bytes. -/
theorem compressBytes_length_le (b : List Byte) :
    (compressBytes b).length ≤ (4 * b.length + 2) / 3 := by
  have h := flushLit_out_length_le (scan_withinBudget b runStart_withinBudget)
  rw [compressBytes]
  omega

/-- The output of a row in range is bounded by ROW_MAX (R112). -/
theorem compressBytes_inputRow_length_le {s : State}
    (h : outOfRange s.cfg s.regs.srcOff.toNat s.regs.rowLen.toNat = false) :
    (compressBytes (inputRow s)).length ≤ (4 * s.cfg.rowMax + 2) / 3 := by
  have hlen := compressBytes_length_le (inputRow s)
  have hrow := (outOfRange_eq_false.mp h).1
  rw [inputRow_length] at hlen
  omega

end Sys2Proof.Machine
end

section
/-! PROOF. The outcomes of a command and of a step in a configuration R6 allows (R9). -/

namespace Sys2Proof.Machine

open Sys2Proof

/-- COMPRESS never meets its fault in a configuration R6 allows (R112). -/
theorem execCompress_next {s : State} (hv : s.cfg.Valid) : ∃ t, execCompress s = .next t := by
  rcases execCompress_cases s with ⟨-, he⟩ | ⟨hr, hover, -⟩ | ⟨-, -, he⟩
  · exact ⟨_, he⟩
  · obtain ⟨-, -, -, -, -, hcb⟩ := hv
    have := compressBytes_inputRow_length_le hr
    omega
  · exact ⟨_, he⟩

theorem execRasterize_next (s : State) : ∃ t, execRasterize s = .next t := by
  rcases execRasterize_cases s with ⟨-, -, he⟩ | ⟨o, -, he⟩
  · exact ⟨_, he⟩
  · exact ⟨_, he⟩

/-- Every command answers a next state; a group of the stream does, or it is the refused one. -/
theorem exec_next_or_reserved80 (i : Instr) {s : State} (hv : s.cfg.Valid) :
    (∃ t, exec i s = .next t) ∨ (i = .reserved80 ∧ exec i s = .refused .reservedControlByte) := by
  cases i with
  | nop => exact .inl ⟨_, rfl⟩
  | rasterize => exact .inl (execRasterize_next s)
  | compress => exact .inl (execCompress_next hv)
  | reset => exact .inl ⟨_, rfl⟩
  | illegalCommand op zero => exact .inl ⟨_, rfl⟩
  | literal payload => exact .inl ⟨_, rfl⟩
  | reserved80 => exact .inr ⟨rfl, rfl⟩
  | repeatRun n v => exact .inl ⟨_, rfl⟩

/-- STATUS after a command: RESET's zeros, success, or the failure of one of the four errors (R130,
R132, R146). -/
theorem exec_command_status {i : Instr} {s t : State} (hi : i.isCommand = true)
    (h : exec i s = .next t) :
    t.regs.status = Status.reset ∨ t.regs.status = Status.success ∨
      ∃ e, t.regs.status = Status.failure (errorCode e) := by
  rcases exec_cases h with ⟨-, rfl⟩ | ⟨-, -, -, e, rfl, -, -⟩ | ⟨-, o, -, -, rfl⟩ | ⟨-, -, -, rfl⟩ |
    ⟨-, rfl⟩ | ⟨hgroup, -⟩
  · exact .inr (.inl rfl)
  · exact .inr (.inr ⟨e, rfl⟩)
  · exact .inr (.inl rfl)
  · exact .inr (.inl rfl)
  · exact .inl rfl
  · simp [hgroup] at hi

theorem errorCode_ne_zero (e : Error) : errorCode e ≠ 0 := by
  intro h
  simpa [h] using errorCode_range e

/-- Settles O19: the fault is excluded by R6's bound on CB_CAP, and STATUS is one of three reports. -/
theorem everyCommandSucceedsOrFails : Obligations.EveryCommandSucceedsOrFails := by
  intro i s hi hv
  rcases exec_next_or_reserved80 i hv with ⟨t, ht⟩ | ⟨rfl, -⟩
  · refine ⟨t, ht, ?_⟩
    rcases exec_command_status hi ht with hst | hst | ⟨e, hst⟩
    · exact .inl (by rw [hst]; exact ⟨rfl, rfl⟩)
    · exact .inl (by rw [hst]; exact ⟨rfl, rfl⟩)
    · exact .inr (by rw [hst]; exact ⟨rfl, errorCode_ne_zero e⟩)
  · cases hi

/-- Fetching an instruction leaves the parameters alone. -/
theorem fetchNext_run_cfg {s t : State} {i : Instr} (h : fetchNext s = .run i t) :
    t.cfg = s.cfg := by
  by_cases hz : s.decIn = []
  · cases hp : s.pending with
    | nil => simp [fetchNext_idle hz hp] at h
    | cons e rest =>
      rw [fetchNext_event hz hp] at h
      obtain ⟨-, -, -, rfl⟩ := performEvent_run h
      rfl
  · rw [fetchNext_group hz] at h
    rcases fetchGroup_cases hz with ⟨j, rest, -, hf⟩ | ⟨-, hf⟩
    · rw [hf] at h
      cases h
      rfl
    · rw [hf] at h
      cases h

/-- A step faults only where the instruction it runs does. -/
theorem step_fault {s : State} {f : Fault} (h : step s = .fault f) :
    ∃ i t, t.cfg = s.cfg ∧ exec i t = .fault f := by
  unfold step at h
  split at h
  · next i t hf => exact ⟨i, t, fetchNext_run_cfg hf, h⟩
  · cases h
  · cases h

/-- Settles O58: only COMPRESS could fault, and R6's bound on CB_CAP excludes it. -/
theorem noStepFaults : Obligations.NoStepFaults := by
  intro s f hv h
  obtain ⟨i, t, hcfg, he⟩ := step_fault h
  rcases exec_next_or_reserved80 i (s := t) (hcfg ▸ hv) with ⟨u, hu⟩ | ⟨-, hr⟩
  · simp [hu] at he
  · simp [hr] at he

end Sys2Proof.Machine
end

section
/-! PROOF. The invariant of the machine: at reset, and through every instruction, event and step. -/

namespace Sys2Proof.Machine

open Sys2Proof

/-! ## The registers -/

theorem Status.reset_good : Status.reset.Good := by decide

theorem Status.success_good : Status.success.Good := by decide

theorem Status.failure_good (e : Error) : (Status.failure (errorCode e)).Good :=
  ⟨nofun, nofun, fun _ => errorCode_range e⟩

variable {c : Config} {r : Regs}

theorem Regs.reset_good (c : Config) : Regs.reset.Good c :=
  ⟨Status.reset_good, by decide, by decide, rfl, Nat.zero_le _, Nat.zero_le _, fun _ => ⟨rfl, rfl⟩⟩

theorem Regs.Good.with_status (h : r.Good c) {st : Status} (hst : st.Good) :
    ({ r with status := st } : Regs).Good c :=
  ⟨hst, h.2⟩

theorem Regs.Good.recordError (h : r.Good c) (e : Error) : (recordError e r).Good c := by
  cases e <;> exact h

/-- The host writes no register the invariant speaks of (R133). -/
theorem Regs.Good.regWriteAt (h : r.Good c) (off : Nat) (w : Word) :
    (regWriteAt r off w).Good c := by
  unfold Machine.regWriteAt
  split
  · next n _ => cases n <;> exact h
  · exact h

theorem Regs.Good.compressResults (h : r.Good c) {z : List Byte}
    (hz : z.length ≤ (4 * c.rowMax + 2) / 3) : (compressResults r z).Good c := by
  obtain ⟨hst, hpath, hstride, hbuf, hrb, -, hzero⟩ := h
  refine ⟨hst, hpath, hstride, hbuf, hrb, ?_, hzero⟩
  calc (BitVec.ofNat 32 z.length).toNat ≤ z.length := by
        rw [BitVec.toNat_ofNat]; exact Nat.mod_le _ _
    _ ≤ (4 * c.rowMax + 2) / 3 := hz

/-- The result registers hold their values unwrapped when the buffer fits in RB (R20, R22, R23). -/
theorem Regs.Good.rasterResults (h : r.Good c) (hc : c.rbCap ≤ 4294967295) (o : Orientation)
    {ow oh : Nat} (how : ow < 65536) (hoh : oh < 65536) (hfit : rowStride ow * oh ≤ c.rbCap) :
    (rasterResults r o ow oh).Good c := by
  obtain ⟨hst, -, -, -, -, hcmp, -⟩ := h
  have hle : rowStride ow ≤ 8192 := by unfold rowStride; omega
  have hstride : (BitVec.ofNat 16 (rowStride ow)).toNat = rowStride ow := by
    rw [BitVec.toNat_ofNat]; omega
  have houtH : (BitVec.ofNat 16 oh).toNat = oh := by rw [BitVec.toNat_ofNat]; omega
  have hbuf : (BitVec.ofNat 32 (rowStride ow * oh)).toNat = rowStride ow * oh := by
    rw [BitVec.toNat_ofNat]; omega
  have hpath : pathCode o ≠ 3 ∧ pathCode o ≠ 0 := by cases o <;> decide
  refine ⟨hst, hpath.1, ?_, ?_, ?_, hcmp, fun h0 => absurd h0 hpath.2⟩
  · simpa only [Machine.rasterResults, hstride] using hle
  · simp only [Machine.rasterResults, hstride, houtH, hbuf]
  · simpa only [Machine.rasterResults, hbuf] using hfit

/-! ## The memories -/

theorem Memory.nil_wf : Memory.wf [] := ⟨.nil, nofun⟩

theorem Memory.nil_below (cap : Nat) : Memory.below [] cap := nofun

/-- A store inside a memory's capacity keeps the three memories good. -/
theorem State.MemoriesGood.storeBytes {s : State} (h : s.MemoriesGood) {m : MemId} {a : Nat}
    {bs : List Byte} (hb : a + bs.length ≤ s.cfg.capacity m) :
    (s.storeBytes m a bs).MemoriesGood := by
  obtain ⟨wim, wrb, wcb, bim, brb, bcb⟩ := h
  cases m with
  | im => exact ⟨Memory.store_wf wim a bs, wrb, wcb, Memory.store_below bim hb, brb, bcb⟩
  | rb => exact ⟨wim, Memory.store_wf wrb a bs, wcb, bim, Memory.store_below brb hb, bcb⟩
  | cb => exact ⟨wim, wrb, Memory.store_wf wcb a bs, bim, brb, Memory.store_below bcb hb⟩

/-! ## The operations -/

variable {s : State}

theorem State.Inv.setRegs (h : s.Inv) (hr : r.Good s.cfg) : (s.setRegs r).Inv :=
  ⟨h.cfgValid, hr, h.memoriesGood⟩

theorem State.Inv.storeBytes (h : s.Inv) {m : MemId} {a : Nat} {bs : List Byte}
    (hb : a + bs.length ≤ s.cfg.capacity m) : (s.storeBytes m a bs).Inv :=
  ⟨by simpa using h.cfgValid, by simpa using h.regsGood, h.memoriesGood.storeBytes hb⟩

theorem State.Inv.succeed (h : s.Inv) : (succeed s).Inv :=
  h.setRegs (h.regsGood.with_status Status.success_good)

theorem State.Inv.raiseError (h : s.Inv) (e : Error) : (raiseError e s).Inv :=
  h.setRegs ((h.regsGood.recordError e).with_status (Status.failure_good e))

/-- Hardware reset establishes all of the invariant but the parameters' validity (R34, R160). -/
theorem hardwareReset_inv (hv : s.cfg.Valid) : (hardwareReset s).Inv :=
  ⟨hv, Regs.reset_good _, Memory.nil_wf, Memory.nil_wf, Memory.nil_wf,
    Memory.nil_below _, Memory.nil_below _, Memory.nil_below _⟩

/-- What the host has still to ask, its replies, and DECODE's lists are outside the invariant. -/
theorem State.Inv.with_lists (h : s.Inv) (pending : List Event) (replies : List Reply)
    (decIn decOut : List Byte) :
    ({ s with pending := pending, replies := replies, decIn := decIn, decOut := decOut } : State).Inv :=
  ⟨h.cfgValid, h.regsGood, h.memoriesGood⟩

/-- The compressed row fits in CB and its length is within the bound of CMP_LEN (R24, R112). -/
theorem State.Inv.writeCompressed (h : s.Inv) {z : List Byte} (hcb : z.length ≤ s.cfg.cbCap)
    (hz : z.length ≤ (4 * s.cfg.rowMax + 2) / 3) : (writeCompressed z s).Inv := by
  have hstore : (s.storeBytes .cb 0 z).Inv := h.storeBytes (by simpa using hcb)
  exact (hstore.setRegs (by simpa using h.regsGood.compressResults hz)).succeed

theorem orientedSides_lt {w h : Nat} (o : Orientation) (hw : w < 65536) (hh : h < 65536) :
    orientedWidth o w h < 65536 ∧ orientedHeight o w h < 65536 := by
  cases o
  · exact ⟨hw, hh⟩
  · exact ⟨hh, hw⟩

/-- The raster buffer fits in RB and the result registers describe it (R20 to R23, R91). -/
theorem State.Inv.storeRaster (h : s.Inv) (o : Orientation) {w ow oh : Nat} (how : ow < 65536)
    (hoh : oh < 65536) (hfit : rowStride ow * oh ≤ s.cfg.rbCap) :
    (Machine.succeed ((s.storeBytes .rb 0 (rasterBytes s o w ow oh)).setRegs
      (rasterResults s.regs o ow oh))).Inv := by
  have hstore : (s.storeBytes .rb 0 (rasterBytes s o w ow oh)).Inv :=
    h.storeBytes (by simpa using hfit)
  obtain ⟨-, -, hrb, -, -, -⟩ := h.cfgValid
  exact (hstore.setRegs (by simpa using h.regsGood.rasterResults hrb o how hoh hfit)).succeed

/-! ## Instructions, events and steps -/

theorem exec_keeps_inv {i : Instr} {t : State} (h : s.Inv) (he : exec i s = .next t) : t.Inv := by
  rcases exec_cases he with ⟨-, rfl⟩ | ⟨-, -, -, e, rfl, -, -⟩ | ⟨-, o, -, hfit, rfl⟩ |
    ⟨-, hrange, hcb, rfl⟩ | ⟨-, rfl⟩ | ⟨-, bs, rfl⟩
  · exact h.succeed
  · exact h.raiseError e
  · obtain ⟨how, hoh⟩ := orientedSides_lt o s.regs.imgW.isLt s.regs.imgH.isLt
    exact h.storeRaster o how hoh (overCapacity_eq_false.mp hfit).2
  · exact h.writeCompressed hcb (compressBytes_inputRow_length_le hrange)
  · exact h.setRegs (Regs.reset_good _)
  · exact h.with_lists _ _ _ _

theorem performEvent_keeps_inv {e : Event} {t : State} (h : s.Inv)
    (he : performEvent e s = .done t) : t.Inv := by
  rcases performEvent_done he with ⟨a, w, -, -, -, rfl⟩ | ⟨reply, rfl⟩ | ⟨m, a, b, -, -, ha, rfl⟩ |
    ⟨-, rfl⟩ | ⟨z, -, rfl⟩
  · exact h.setRegs (h.regsGood.regWriteAt a w)
  · exact h.with_lists _ _ _ _
  · exact h.storeBytes ha
  · exact hardwareReset_inv h.cfgValid
  · exact h.with_lists _ _ _ _

end Sys2Proof.Machine
end

section
/-! PROOF. The invariant of the machine, settled: every step keeps it and reset meets it. -/

namespace Sys2Proof.Machine

open Sys2Proof

/-- Settles O59: a step is an instruction, an event, or nothing, each at a state that differs from the
first in the lists alone. -/
theorem stepKeepsTheInvariant : Obligations.StepKeepsTheInvariant := by
  intro s t h hs
  rcases step_cases hs with ⟨i, rest, -, he⟩ | ⟨w, rest, -, -, he⟩ | ⟨e, rest, -, -, he⟩ | ⟨-, -, rfl⟩
  · exact exec_keeps_inv (h.with_lists _ _ rest _) he
  · exact exec_keeps_inv (h.with_lists rest _ _ _) he
  · exact performEvent_keeps_inv (h.with_lists rest _ _ _) he
  · exact h

theorem Config.default_valid : Config.default.Valid := by decide

/-- Settles O8: but for the count of resets, which the invariant does not speak of, the reset state is a
hardware reset of itself. -/
theorem invariantHoldsAtReset : Obligations.InvariantHoldsAtReset :=
  have h := hardwareReset_inv (s := State.reset) Config.default_valid
  ⟨h.cfgValid, h.regsGood, h.memoriesGood⟩

end Sys2Proof.Machine
end

section
/-! PROOF. What a word written to CMD is, and the step at a given next event (R60, R61, R130, log 3). -/

namespace Sys2Proof

/-- The fields ZERO and OP are the whole command word (R60). -/
theorem cmdZero_append_cmdOp (w : Word) : cmdZero w ++ cmdOp w = w :=
  BitVec.extractLsb'_append_extractLsb'

/-- A word with ZERO 0 is its field OP. -/
theorem zero_append_of_cmdOp {w : Word} {op : BitVec 8} (hzero : cmdZero w = 0)
    (hop : cmdOp w = op) : 0#24 ++ op = w := by
  have hw := cmdZero_append_cmdOp w
  rwa [hzero, hop] at hw

/-- Encoding the command a word is gives the word back (R60, R61). -/
theorem encode_decodeCmd (w : Word) : encode (decodeCmd w) = .cmdw w := by
  unfold decodeCmd
  split
  · exact congrArg Code.cmdw (cmdZero_append_cmdOp w)
  · next hzero =>
    have hop {op : BitVec 8} : cmdOp w = op → 0#24 ++ op = w :=
      zero_append_of_cmdOp (not_not.mp hzero)
    split_ifs with h0 h1 h2 h3
    · exact congrArg Code.cmdw (hop h0)
    · exact congrArg Code.cmdw (hop h1)
    · exact congrArg Code.cmdw (hop h2)
    · exact congrArg Code.cmdw (hop h3)
    · exact congrArg Code.cmdw (cmdZero_append_cmdOp w)

theorem decodeCmd_injective : Function.Injective decodeCmd := by
  intro w v h
  have hcode := congrArg encode h
  rw [encode_decodeCmd, encode_decodeCmd] at hcode
  exact Code.cmdw.inj hcode

theorem eq_of_decodeCmd_rasterize {w : Word} (h : decodeCmd w = .rasterize) : w = 0x01#32 :=
  decodeCmd_injective h

theorem eq_of_decodeCmd_compress {w : Word} (h : decodeCmd w = .compress) : w = 0x02#32 :=
  decodeCmd_injective h

theorem eq_of_decodeCmd_reset {w : Word} (h : decodeCmd w = .reset) : w = 0xFF#32 :=
  decodeCmd_injective h

namespace Machine

variable {s : State} {e : Event} {rest : List Event}

/-- A write to CMD runs the command the word is, at the state past the event (R130). -/
theorem step_cmdWrite {w : Word} (h : s.Next (.w32 .reg 0 w) rest) :
    step s = exec (decodeCmd w) { s with pending := rest } := by
  rw [step, fetchNext_event h.1 h.2]
  rfl

theorem step_hardwareReset (h : s.Next .hardwareReset rest) :
    step s = .next (hardwareReset { s with pending := rest }) := by
  rw [step, fetchNext_event h.1 h.2]
  rfl

theorem step_runDecoder {z : List Byte} (h : s.Next (.runDecoder z) rest) :
    step s = .next { s with pending := rest, decIn := z, decOut := [] } := by
  rw [step, fetchNext_event h.1 h.2]
  rfl

theorem step_idle (hz : s.decIn = []) (hp : s.pending = []) : step s = .next s := by
  rw [step, fetchNext_idle hz hp]

end Machine
end Sys2Proof
end

section
/-! PROOF. The values after reset, the bytes nobody has written, and the idle block (R33, R34, R117). -/

namespace Sys2Proof.Machine

open Sys2Proof

theorem regRead_reset (n : RegName) : regRead Regs.reset n = 0 := by
  cases n <;> rfl

theorem lookup_reset (m : MemId) (a : Nat) : (State.reset.mem m).lookup a = none := by
  cases m <;> rfl

/-- Settles O7: the parameters at reset are ones R6 allows, so the command that a word is answers a next
state there. -/
theorem resetValues : Obligations.ResetValues := by
  refine ⟨regRead_reset, lookup_reset, fun s => rfl, fun w => ?_⟩
  obtain ⟨t, ht, -⟩ := everyCommandSucceedsOrFails (decodeCmd w) State.reset (decodeCmd_isCommand w)
    Config.default_valid
  exact ⟨t, by rw [step_cmdWrite (rest := []) ⟨rfl, rfl⟩]; exact ht⟩

variable {s : State} {m : MemId} {a : Nat}

theorem readByte_of_lookup_none (h : (s.mem m).lookup a = none) :
    readByte s m a = Config.unwrittenByte s.resets m a := by
  simp [readByte, h]

theorem readByte_of_lookup_some {b : Byte} (h : (s.mem m).lookup a = some b) :
    readByte s m a = b := by
  simp [readByte, h]

theorem lookup_hardwareReset (s : State) (m : MemId) (a : Nat) :
    ((hardwareReset s).mem m).lookup a = none := by
  cases m <;> rfl

/-- Settles O10: a hardware reset lists no byte and raises the count the free values are applied to. -/
theorem unwrittenBytesHoldFreeValues : Obligations.UnwrittenBytesHoldFreeValues := fun _ _ _ _ =>
  ⟨readByte_of_lookup_none, fun _ => readByte_of_lookup_some, fun h =>
    ⟨_, step_hardwareReset h, readByte_of_lookup_none (lookup_hardwareReset _ _ _)⟩⟩

/-- Settles O13: both are the fetch's own cases. -/
theorem idleAndDecoderStart : Obligations.IdleAndDecoderStart :=
  ⟨fun _ hz hp => step_idle hz hp, fun _ _ _ h => step_runDecoder h⟩

end Sys2Proof.Machine
end

section
/-! PROOF. STATUS: the places of its fields, and the word each command leaves (R13, R130, R141). -/

namespace Sys2Proof.Machine

open Sys2Proof

/-- Above its two flag bits STATUS is ERR_CODE between its zero fields (R13). -/
theorem extractLsb'_statusWord (st : Status) {start len : Nat} (h : 2 ≤ start) :
    (statusWord st).extractLsb' start len = (0#16 ++ st.errCode ++ 0#6).extractLsb' (start - 2) len :=
  (BitVec.extractLsb'_append_eq_of_le (w := 1) (by omega)).trans
    (BitVec.extractLsb'_append_eq_of_le (w := 1) (by omega))

/-- Settles O18: the word is an append, and each field is the part of it at the field's place. -/
theorem statusFieldPlaces : Obligations.StatusFieldPlaces := by
  intro st
  refine ⟨?_, ?_, ?_, ?_, ?_⟩
  · exact (BitVec.getLsbD_append (m := 1)).trans (by simp)
  · exact (BitVec.getLsbD_append (m := 1)).trans ((BitVec.getLsbD_append (m := 1)).trans (by simp))
  · rw [extractLsb'_statusWord st (by decide), BitVec.extractLsb'_append_eq_of_le (by decide)]
    exact BitVec.extractLsb'_append_eq_right
  · rw [extractLsb'_statusWord st (by decide)]
    exact BitVec.extractLsb'_append_eq_right
  · rw [extractLsb'_statusWord st (by decide), BitVec.extractLsb'_append_eq_of_le (by decide)]
    exact BitVec.extractLsb'_append_eq_left

theorem statusWord_success : statusWord Status.success = 0x00000001#32 := by decide

theorem statusWord_dimMismatch : statusWord (Status.failure 0x01) = 0x00000103#32 := by decide

theorem statusWord_capacity : statusWord (Status.failure 0x02) = 0x00000203#32 := by decide

theorem statusWord_range : statusWord (Status.failure 0x03) = 0x00000303#32 := by decide

theorem statusWord_illegalCmd : statusWord (Status.failure 0x04) = 0x00000403#32 := by decide

theorem execRasterize_status {s t : State} (h : execRasterize s = .next t) :
    t.regs.status = Status.success ∨ t.regs.status = Status.failure 0x01 ∨
      t.regs.status = Status.failure 0x02 := by
  rcases execRasterize_cases s with ⟨-, -, he⟩ | ⟨o, -, he⟩ <;> cases he.symm.trans h
  · exact .inr (.inl rfl)
  · rcases rasterizeOriented_cases o s.regs.imgW.toNat s.regs.imgH.toNat s with ⟨-, hr⟩ | ⟨-, hr⟩
    · exact .inr (.inr (by rw [hr]; rfl))
    · exact .inl (by rw [hr]; rfl)

theorem execCompress_status {s t : State} (h : execCompress s = .next t) :
    t.regs.status = Status.success ∨ t.regs.status = Status.failure 0x03 := by
  rcases execCompress_cases s with ⟨-, he⟩ | ⟨-, -, he⟩ | ⟨-, -, he⟩ <;> cases he.symm.trans h
  · exact .inr rfl
  · exact .inl rfl

/-- Settles O17: each command leaves STATUS at success, at the failure of an error of its own, or at
RESET's zeros. -/
theorem statusAfterEachCommand : Obligations.StatusAfterEachCommand := by
  refine fun s t => ⟨?_, fun h => ?_, fun h => ?_, ?_, ?_⟩
  · rintro ⟨⟩
    exact statusWord_success
  · rcases execRasterize_status h with hst | hst | hst <;> rw [hst]
    · exact .inl statusWord_success
    · exact .inr (.inl statusWord_dimMismatch)
    · exact .inr (.inr statusWord_capacity)
  · rcases execCompress_status h with hst | hst <;> rw [hst]
    · exact .inl statusWord_success
    · exact .inr statusWord_range
  · rintro ⟨⟩
    exact regRead_reset .status
  · rintro op zero ⟨⟩
    exact statusWord_illegalCmd

end Sys2Proof.Machine
end

section
/-! PROOF. Who writes each part of the state: an inversion lemma for instructions and one for events,
and a rule that carries them to steps (R10, R28 to R30, R133). -/

namespace Sys2Proof.Machine

open Sys2Proof

/-! ## Instructions and events -/

section

variable {i : Instr} {e : Event} {s t : State}

/-- A group of the stream appends bytes to the decoded output and does nothing else (R117). -/
theorem exec_group (hi : i.isCommand = false) (h : exec i s = .next t) :
    ∃ bs, t = s.appendDecoded bs := by
  cases i with
  | literal payload => cases h; exact ⟨_, rfl⟩
  | repeatRun n v => cases h; exact ⟨_, rfl⟩
  | reserved80 => cases h
  | nop | rasterize | compress | reset | illegalCommand => cases hi

/-- No instruction writes the parameters or IM, only RASTERIZE writes RB, only COMPRESS writes CB. -/
theorem exec_memories (h : exec i s = .next t) :
    t.cfg = s.cfg ∧ t.im = s.im ∧ (t.rb = s.rb ∨ i = .rasterize) ∧ (t.cb = s.cb ∨ i = .compress) := by
  rcases exec_cases h with ⟨-, rfl⟩ | ⟨-, -, -, e, rfl, -, -⟩ | ⟨hi, o, -, -, rfl⟩ | ⟨hi, -, -, rfl⟩ |
    ⟨-, rfl⟩ | ⟨-, bs, rfl⟩
  · exact ⟨rfl, rfl, .inl rfl, .inl rfl⟩
  · exact ⟨rfl, rfl, .inl rfl, .inl rfl⟩
  · exact ⟨rfl, rfl, .inr hi, .inl rfl⟩
  · exact ⟨rfl, rfl, .inl rfl, .inr hi⟩
  · exact ⟨rfl, rfl, .inl rfl, .inl rfl⟩
  · exact ⟨rfl, rfl, .inl rfl, .inl rfl⟩

/-- The registers an instruction can write: all of them RESET, the raster results, the report and STATUS
RASTERIZE, CMP_LEN and STATUS COMPRESS, and STATUS alone any other. -/
theorem exec_regs_cases (h : exec i s = .next t) :
    i = .reset ∨
    (i = .rasterize ∧
      t.regs = { s.regs with
        status := t.regs.status, stride := t.regs.stride, outH := t.regs.outH,
        bufLen := t.regs.bufLen, path := t.regs.path, errExpect := t.regs.errExpect,
        errActualW := t.regs.errActualW, errActualH := t.regs.errActualH }) ∨
    (i = .compress ∧ t.regs = { s.regs with status := t.regs.status, cmpLen := t.regs.cmpLen }) ∨
    t.regs = { s.regs with status := t.regs.status } := by
  rcases exec_cases h with ⟨-, rfl⟩ | ⟨-, -, -, e, rfl, hraster, -⟩ | ⟨hi, o, -, -, rfl⟩ |
    ⟨hi, -, -, rfl⟩ | ⟨hi, -⟩ | ⟨-, bs, rfl⟩
  · exact .inr (.inr (.inr rfl))
  · cases e with
    | dimMismatch x y z => exact .inr (.inl ⟨hraster ⟨x, y, z, .inl rfl⟩, rfl⟩)
    | capacity => exact .inr (.inr (.inr rfl))
    | range => exact .inr (.inr (.inr rfl))
    | illegalCmd => exact .inr (.inr (.inr rfl))
  · exact .inr (.inl ⟨hi, rfl⟩)
  · exact .inr (.inr (.inl ⟨hi, rfl⟩))
  · exact .inl hi
  · exact .inr (.inr (.inr rfl))

theorem performEvent_cfg (h : performEvent e s = .done t) : t.cfg = s.cfg := by
  rcases performEvent_done h with ⟨a, w, -, -, -, rfl⟩ | ⟨r, rfl⟩ | ⟨m, a, b, -, -, -, rfl⟩ |
    ⟨-, rfl⟩ | ⟨z, -, rfl⟩
  · rfl
  · rfl
  · exact State.storeBytes_cfg s m a [b]
  · rfl
  · rfl

/-- An event that is no command writes a memory as a hardware reset, or as the host's write to it,
which CB does not take. -/
theorem performEvent_mem (m : MemId) (h : performEvent e s = .done t) :
    t.mem m = s.mem m ∨ e = .hardwareReset ∨ (m ≠ .cb ∧ ∃ a b, e = .w8 (.mem m) a b) := by
  rcases performEvent_done h with ⟨a, w, -, -, -, rfl⟩ | ⟨r, rfl⟩ | ⟨m', a, b, he, hcb, -, rfl⟩ |
    ⟨he, -⟩ | ⟨z, -, rfl⟩
  · exact .inl (State.mem_setRegs s _ m)
  · exact .inl (by cases m <;> rfl)
  · by_cases hm : m = m'
    · subst hm
      exact .inr (.inr ⟨hcb, a, b, he⟩)
    · exact .inl (State.mem_setMem_other s m' m _ hm)
  · exact .inr (.inl he)
  · exact .inl (by cases m <;> rfl)

/-- An event that is no command writes the registers as a hardware reset or as the host's write to
REG. -/
theorem performEvent_regs (h : performEvent e s = .done t) :
    t.regs = s.regs ∨ e = .hardwareReset ∨
      ∃ off w, e = .w32 .reg off w ∧ t.regs = regWriteAt s.regs off w := by
  rcases performEvent_done h with ⟨off, w, he, -, -, rfl⟩ | ⟨r, rfl⟩ | ⟨m, a, b, -, -, -, rfl⟩ |
    ⟨he, -⟩ | ⟨z, -, rfl⟩
  · exact .inr (.inr ⟨off, w, he, rfl⟩)
  · exact .inl rfl
  · exact .inl (State.storeBytes_regs s m a [b])
  · exact .inr (.inl he)
  · exact .inl rfl

end

/-! ## Register writes -/

/-- The RW registers (R133), as `regWrite_readOnly` lists them. -/
abbrev RegName.readWrite : List RegName := [.imgW, .imgH, .rasterW, .srcOff, .rowLen]

/-- A host write leaves every register but the RW ones as it was (R133). -/
theorem regWriteAt_eq (r : Regs) (off : Nat) (w : Word) :
    regWriteAt r off w =
      { r with
        imgW := (regWriteAt r off w).imgW, imgH := (regWriteAt r off w).imgH,
        rasterW := (regWriteAt r off w).rasterW, srcOff := (regWriteAt r off w).srcOff,
        rowLen := (regWriteAt r off w).rowLen } := by
  unfold regWriteAt
  split
  · next n _ => cases n <;> rfl
  · rfl

/-- A host write changes how a register reads only at that register's offset (R11, R133). -/
theorem regRead_regWriteAt (r : Regs) (off : Nat) (w : Word) (n : RegName) :
    regRead (regWriteAt r off w) n = regRead r n ∨ off = regOffset n := by
  cases hat : regAt off with
  | none => exact .inl (by simp only [regWriteAt, hat])
  | some n' =>
    by_cases hn : n' = n
    · exact .inr (hn ▸ regAt_eq_some.mp hat)
    · refine .inl ?_
      simp only [regWriteAt, hat]
      by_cases hrw : n' ∈ RegName.readWrite
      · fin_cases hrw <;> cases n <;> simp_all [regRead, regWrite]
      · rw [regWrite_readOnly r w hrw]

/-- How an RW register reads does not depend on the registers that commands write. -/
theorem regRead_with_results {n : RegName} (hn : n ∈ RegName.readWrite) (r : Regs) (status : Status)
    (stride outH : BitVec 16) (bufLen cmpLen : BitVec 32) (path : BitVec 2)
    (errExpect errActualW errActualH : BitVec 16) :
    regRead { r with
      status := status, stride := stride, outH := outH, bufLen := bufLen, cmpLen := cmpLen,
      path := path, errExpect := errExpect, errActualW := errActualW, errActualH := errActualH } n =
    regRead r n := by
  fin_cases hn <;> rfl

/-- No command but RESET changes how an RW register reads (R54, log 10). -/
theorem exec_rwRegister {n : RegName} (hn : n ∈ RegName.readWrite) {i : Instr} {s t : State}
    (h : exec i s = .next t) : regRead t.regs n = regRead s.regs n ∨ i = .reset := by
  rcases exec_regs_cases h with hi | ⟨-, hr⟩ | ⟨-, hr⟩ | hr
  · exact .inr hi
  all_goals exact .inl (hr ▸ regRead_with_results hn s.regs _ _ _ _ _ _ _ _ _)

/-- What RASTERIZE writes besides STATUS: its results and the mismatch report (R91, R142). -/
def Regs.rasterReport (r : Regs) :
    BitVec 16 × BitVec 16 × BitVec 32 × BitVec 2 × BitVec 16 × BitVec 16 × BitVec 16 :=
  (r.stride, r.outH, r.bufLen, r.path, r.errExpect, r.errActualW, r.errActualH)

theorem Regs.rasterReport_ne {r r' : Regs}
    (h : r'.stride ≠ r.stride ∨ r'.outH ≠ r.outH ∨ r'.bufLen ≠ r.bufLen ∨ r'.path ≠ r.path ∨
      r'.errExpect ≠ r.errExpect ∨ r'.errActualW ≠ r.errActualW ∨ r'.errActualH ≠ r.errActualH) :
    r'.rasterReport ≠ r.rasterReport := by
  simp only [rasterReport, ne_eq, Prod.mk.injEq]
  tauto

/-! ## Steps -/

section

variable {s t : State} {α : Type} {p : Event → Prop}

/-- A part of the state outside the model's own lists is as it was after a step, or the step was an
event that may write it: a write to CMD whose command does, or another event that does. -/
theorem step_writer (f : State → α)
    (hlists : ∀ (s : State) pending decIn decOut,
      f { s with pending := pending, decIn := decIn, decOut := decOut } = f s)
    (hcmd : ∀ w s t, exec (decodeCmd w) s = .next t → f t = f s ∨ p (.w32 .reg 0 w))
    (hevent : ∀ e s t, performEvent e s = .done t → f t = f s ∨ p e) (h : step s = .next t) :
    f t = f s ∨ s.NextIs p := by
  have hpast (rest : List Event) : f { s with pending := rest } = f s := hlists s rest _ _
  rcases step_cases h with ⟨i, rest, hd, he⟩ | ⟨w, rest, hz, hp, he⟩ | ⟨e, rest, hz, hp, he⟩ |
    ⟨-, -, rfl⟩
  · obtain ⟨bs, rfl⟩ := exec_group (decodeGroup_not_command hd) he
    exact .inl (hlists s _ _ _)
  · exact (hcmd w _ t he).imp (·.trans (hpast rest)) fun hw => ⟨_, rest, ⟨hz, hp⟩, hw⟩
  · exact (hevent e _ t he).imp (·.trans (hpast rest)) fun hw => ⟨e, rest, ⟨hz, hp⟩, hw⟩
  · exact .inl rfl

/-- Settles O54: a step that changed the parameters would need an event, and there is none that does. -/
theorem noStepChangesTheParameters : Obligations.NoStepChangesTheParameters := fun _ _ h =>
  (step_writer (p := fun _ => False) State.cfg (fun _ _ _ _ => rfl)
    (fun _ _ _ he => .inl (exec_memories he).1) (fun _ _ _ he => .inl (performEvent_cfg he))
    h).resolve_right fun ⟨_, _, _, hnone⟩ => hnone

/-- The rule for a memory: besides the commands that write it, a hardware reset and, but for CB, the
host's write to it. -/
theorem step_mem (m : MemId)
    (hcmd : ∀ w s t, exec (decodeCmd w) s = .next t → t.mem m = s.mem m ∨ p (.w32 .reg 0 w))
    (hreset : p .hardwareReset) (hhost : m ≠ .cb → ∀ a b, p (.w8 (.mem m) a b))
    (h : step s = .next t) : t.mem m = s.mem m ∨ s.NextIs p := by
  refine step_writer (·.mem m) (fun _ _ _ _ => by cases m <;> rfl) hcmd (fun e s t he => ?_) h
  rcases performEvent_mem m he with hm | rfl | ⟨hcb, a, b, rfl⟩
  · exact .inl hm
  · exact .inr hreset
  · exact .inr (hhost hcb a b)

/-- Only the host or a hardware reset changes IM (R28). -/
theorem step_im (h : step s = .next t) :
    t.im = s.im ∨ s.NextIs (fun e => e = .hardwareReset ∨ ∃ a b, e = .w8 (.mem .im) a b) := by
  refine step_mem .im (fun w s t he => ?_) (.inl rfl) (fun _ a b => .inr ⟨a, b, rfl⟩) h
  obtain ⟨-, him, -, -⟩ := exec_memories he
  exact .inl him

/-- Only the host, RASTERIZE or a hardware reset changes RB (R29). -/
theorem step_rb (h : step s = .next t) :
    t.rb = s.rb ∨ s.NextIs (fun e => e = .hardwareReset ∨ (∃ a b, e = .w8 (.mem .rb) a b) ∨
      e = .w32 .reg 0 0x01#32) := by
  refine step_mem .rb (fun w s t he => ?_) (.inl rfl) (fun _ a b => .inr (.inl ⟨a, b, rfl⟩)) h
  obtain ⟨-, -, hrb, -⟩ := exec_memories he
  exact hrb.imp_right fun hi => .inr (.inr (by rw [eq_of_decodeCmd_rasterize hi]))

/-- Only COMPRESS or a hardware reset changes CB (R30). -/
theorem step_cb (h : step s = .next t) :
    t.cb = s.cb ∨ s.NextIs (fun e => e = .hardwareReset ∨ e = .w32 .reg 0 0x02#32) := by
  refine step_mem .cb (fun w s t he => ?_) (.inl rfl) (fun hcb => absurd rfl hcb) h
  obtain ⟨-, -, -, hcb⟩ := exec_memories he
  exact hcb.imp_right fun hi => .inr (by rw [eq_of_decodeCmd_compress hi])

/-- Settles O56: RASTERIZE and COMPRESS are the only commands that write a memory, each its own, and
each is one word of CMD. -/
theorem memoriesHaveTheirWriters : Obligations.MemoriesHaveTheirWriters := fun _ _ h =>
  ⟨(step_im h).resolve_left, (step_rb h).resolve_left, (step_cb h).resolve_left⟩

/-- The rule for registers that no host write to REG changes: besides the commands that write them, a
hardware reset. -/
theorem step_readOnly (f : Regs → α) (hwrite : ∀ r off w, f (regWriteAt r off w) = f r)
    (hcmd : ∀ w s t, exec (decodeCmd w) s = .next t → f t.regs = f s.regs ∨ p (.w32 .reg 0 w))
    (hreset : p .hardwareReset) (h : step s = .next t) : f t.regs = f s.regs ∨ s.NextIs p := by
  refine step_writer (f ·.regs) (fun _ _ _ _ => rfl) hcmd (fun e s t he => ?_) h
  rcases performEvent_regs he with hr | rfl | ⟨off, w, -, hr⟩
  · exact .inl (congrArg f hr)
  · exact .inr hreset
  · exact .inl ((congrArg f hr).trans (hwrite ..))

/-- Only a write to CMD or a hardware reset changes STATUS (R13). -/
theorem step_status (h : step s = .next t) :
    t.regs.status = s.regs.status ∨
      s.NextIs (fun e => e = .hardwareReset ∨ ∃ w, e = .w32 .reg 0 w) :=
  step_readOnly Regs.status regWriteAt_status (fun w _ _ _ => .inr (.inr ⟨w, rfl⟩)) (.inl rfl) h

/-- Only RASTERIZE or a reset changes the raster results and the mismatch report (R20 to R22, R24 to
R26). -/
theorem step_rasterReport (h : step s = .next t) :
    t.regs.rasterReport = s.regs.rasterReport ∨
      s.NextIs (fun e => e = .hardwareReset ∨ e = .w32 .reg 0 0x01#32 ∨ e = .w32 .reg 0 0xFF#32) := by
  refine step_readOnly Regs.rasterReport
    (fun r off w => (congrArg Regs.rasterReport (regWriteAt_eq r off w) :)) (fun w s t he => ?_)
    (.inl rfl) h
  rcases exec_regs_cases he with hi | ⟨hi, -⟩ | ⟨-, hr⟩ | hr
  · exact .inr (.inr (.inr (by rw [eq_of_decodeCmd_reset hi])))
  · exact .inr (.inr (.inl (by rw [eq_of_decodeCmd_rasterize hi])))
  · exact .inl (congrArg Regs.rasterReport hr :)
  · exact .inl (congrArg Regs.rasterReport hr :)

/-- Only COMPRESS or a reset changes CMP_LEN (R23). -/
theorem step_cmpLen (h : step s = .next t) :
    t.regs.cmpLen = s.regs.cmpLen ∨
      s.NextIs (fun e => e = .hardwareReset ∨ e = .w32 .reg 0 0x02#32 ∨ e = .w32 .reg 0 0xFF#32) := by
  refine step_readOnly Regs.cmpLen (fun r off w => (congrArg Regs.cmpLen (regWriteAt_eq r off w) :))
    (fun w s t he => ?_) (.inl rfl) h
  rcases exec_regs_cases he with hi | ⟨-, hr⟩ | ⟨hi, -⟩ | hr
  · exact .inr (.inr (.inr (by rw [eq_of_decodeCmd_reset hi])))
  · exact .inl (congrArg Regs.cmpLen hr :)
  · exact .inr (.inr (.inl (by rw [eq_of_decodeCmd_compress hi])))
  · exact .inl (congrArg Regs.cmpLen hr :)

/-- Only the host's write to it or a reset changes an RW register (R15 to R19, R133). -/
theorem step_rwRegister {n : RegName} (hn : n ∈ RegName.readWrite) (h : step s = .next t) :
    regRead t.regs n = regRead s.regs n ∨
      s.NextIs (fun e => e = .hardwareReset ∨ e = .w32 .reg 0 0xFF#32 ∨
        ∃ w, e = .w32 .reg (regOffset n) w) := by
  refine step_writer (fun s => regRead s.regs n) (fun _ _ _ _ => rfl) (fun w s t he => ?_)
    (fun e s t he => ?_) h
  · exact (exec_rwRegister hn he).imp_right fun hi => .inr (.inl (by rw [eq_of_decodeCmd_reset hi]))
  · rcases performEvent_regs he with hr | rfl | ⟨off, w, rfl, hr⟩
    · exact .inl (congrArg (regRead · n) hr)
    · exact .inr (.inl rfl)
    · exact (regRead_regWriteAt s.regs off w n).imp (congrArg (regRead · n) hr).trans
        fun hoff => .inr (.inr ⟨w, by rw [hoff]⟩)

/-- A 16-bit field that changed changes the word the host reads. -/
theorem setWidth_ne {x y : BitVec 16} (h : x ≠ y) : x.setWidth 32 ≠ y.setWidth 32 := by
  bv_omega

/-- Settles O57: the read-only registers by the command that writes them, the RW registers by how they
read. -/
theorem registersHaveTheirWriters : Obligations.RegistersHaveTheirWriters := by
  refine fun s t h => ⟨(step_status h).resolve_left,
    fun hne => (step_rasterReport h).resolve_left (Regs.rasterReport_ne hne),
    (step_cmpLen h).resolve_left, fun hne => ?_, fun hne => ?_, fun hne => ?_, fun hne => ?_,
    fun hne => ?_⟩
  · exact (step_rwRegister (n := .imgW) (by decide) h).resolve_left (setWidth_ne hne)
  · exact (step_rwRegister (n := .imgH) (by decide) h).resolve_left (setWidth_ne hne)
  · exact (step_rwRegister (n := .rasterW) (by decide) h).resolve_left (setWidth_ne hne)
  · exact (step_rwRegister (n := .srcOff) (by decide) h).resolve_left hne
  · exact (step_rwRegister (n := .rowLen) (by decide) h).resolve_left (setWidth_ne hne)

end

end Sys2Proof.Machine
end

section
/-! PROOF. A command that is issued again right after it has run (R48). -/

namespace Sys2Proof.Machine

open Sys2Proof

variable {s t : State}

theorem raiseError_raiseError (e : Error) (s : State) :
    raiseError e (raiseError e s) = raiseError e s := by
  cases e <;> rfl

/-- A success that stored bytes and set registers, carried out again from where it led. -/
theorem succeed_storeBytes_again (s : State) (m : MemId) (a : Nat) (bs : List Byte) (r : Regs)
    (ht : t = succeed ((s.storeBytes m a bs).setRegs r)) :
    succeed ((t.storeBytes m a bs).setRegs t.regs) = t := by
  subst ht
  cases m <;>
    simp [succeed_eq, State.storeBytes, State.setMem, State.mem, State.setRegs, Memory.store_store]

theorem execRasterize_of_none
    (ho : orientation s.regs.imgW.toNat s.regs.imgH.toNat s.regs.rasterW.toNat = none) :
    execRasterize s =
      .next (raiseError (.dimMismatch s.regs.rasterW s.regs.imgW s.regs.imgH) s) := by
  simp only [execRasterize, ho]

theorem execRasterize_of_some {o : Orientation}
    (ho : orientation s.regs.imgW.toNat s.regs.imgH.toNat s.regs.rasterW.toNat = some o) :
    execRasterize s = .next (rasterizeOriented o s.regs.imgW.toNat s.regs.imgH.toNat s) := by
  simp only [execRasterize, ho]

/-- Neither CAPACITY nor the stored raster buffer changes what RASTERIZE reads. -/
theorem rasterizeOriented_again (o : Orientation) (w h : Nat) (s : State) :
    rasterizeOriented o w h (rasterizeOriented o w h s) = rasterizeOriented o w h s := by
  rcases rasterizeOriented_cases o w h s with ⟨hc, hr⟩ | ⟨hc, hr⟩
  · rw [hr]
    calc rasterizeOriented o w h (raiseError .capacity s)
      _ = raiseError .capacity (raiseError .capacity s) := if_pos hc
      _ = raiseError .capacity s := raiseError_raiseError _ s
  · rw [hr]
    exact (if_neg (ne_true_of_eq_false hc)).trans (succeed_storeBytes_again s .rb 0 _ _ rfl)

/-- RASTERIZE writes none of the registers that choose its orientation. -/
theorem rasterizeOriented_inputs (o : Orientation) (w h : Nat) (s : State) :
    (rasterizeOriented o w h s).regs.imgW = s.regs.imgW ∧
      (rasterizeOriented o w h s).regs.imgH = s.regs.imgH ∧
      (rasterizeOriented o w h s).regs.rasterW = s.regs.rasterW := by
  rcases rasterizeOriented_cases o w h s with ⟨-, hr⟩ | ⟨-, hr⟩ <;> rw [hr] <;>
    exact ⟨rfl, rfl, rfl⟩

theorem execRasterize_again (h : execRasterize s = .next t) : execRasterize t = .next t := by
  cases ho : orientation s.regs.imgW.toNat s.regs.imgH.toNat s.regs.rasterW.toNat with
  | none =>
    cases (execRasterize_of_none ho).symm.trans h
    exact execRasterize_of_none ho
  | some o =>
    cases (execRasterize_of_some ho).symm.trans h
    obtain ⟨hw, hh, hrw⟩ :=
      rasterizeOriented_inputs o s.regs.imgW.toNat s.regs.imgH.toNat s
    rw [execRasterize_of_some (by rw [hw, hh, hrw]; exact ho), hw, hh, rasterizeOriented_again]

theorem execCompress_of_fits
    (hr : outOfRange s.cfg s.regs.srcOff.toNat s.regs.rowLen.toNat = false)
    (hl : (compressBytes (inputRow s)).length ≤ s.cfg.cbCap) :
    execCompress s = .next (writeCompressed (compressBytes (inputRow s)) s) := by
  simp only [execCompress, hr, Bool.false_eq_true, if_false, if_neg (Nat.not_lt.mpr hl)]

/-- COMPRESS writes nothing of RB, SRC_OFF and ROW_LEN, so its input row stays (R100, R112). -/
theorem inputRow_writeCompressed (z : List Byte) (s : State) :
    inputRow (writeCompressed z s) = inputRow s :=
  readBytes_congr fun _ _ => rfl

theorem writeCompressed_writeCompressed (z : List Byte) (s : State) :
    writeCompressed z (writeCompressed z s) = writeCompressed z s :=
  succeed_storeBytes_again s .cb 0 z _ rfl

theorem execCompress_again (h : execCompress s = .next t) : execCompress t = .next t := by
  rcases execCompress_cases s with ⟨hr, he⟩ | ⟨-, -, he⟩ | ⟨hr, hl, he⟩ <;> cases he.symm.trans h
  · exact if_pos hr
  · have hrow := inputRow_writeCompressed (compressBytes (inputRow s)) s
    have hagain := execCompress_of_fits (s := writeCompressed _ s) hr (hrow ▸ hl)
    rw [hagain, hrow, writeCompressed_writeCompressed]

/-- Settles O31: what the first run wrote is no input of the second, which stores the same bytes and
registers again. -/
theorem reissuingChangesNothing : Obligations.ReissuingChangesNothing := fun _ _ =>
  ⟨execRasterize_again, execCompress_again⟩

end Sys2Proof.Machine
end

section
/-! PROOF. The host's accesses that are refused, and the register accesses that change nothing (R45,
R46, R55, R133, R134). -/

namespace Sys2Proof.Machine

open Sys2Proof

variable {s : State} {e : Event} {rest : List Event}

/-- What a step makes of what it fetched. -/
def Fetched.complete : Fetched → Host.Outcome State Fault Refusal
  | .run i s => exec i s
  | .done s => .next s
  | .stop r => .refused r

/-- The step at a given next event performs it, and runs the command that a write to CMD is. -/
theorem step_event (h : s.Next e rest) :
    step s = (performEvent e { s with pending := rest }).complete := by
  rw [step, fetchNext_event h.1 h.2]
  rfl

theorem step_done {t : State} (h : s.Next e rest)
    (he : performEvent e { s with pending := rest } = .done t) : step s = .next t := by
  rw [step_event h, he]
  rfl

theorem step_refused (h : s.Next e rest)
    (he : ∃ r, performEvent e { s with pending := rest } = .stop r) : ∃ r, step s = .refused r := by
  obtain ⟨r, hr⟩ := he
  exact ⟨r, by rw [step_event h, hr]; rfl⟩

/-! ## The register accesses -/

theorem checkReg_refuses {off : Nat} (h : off % 4 ≠ 0 ∨ 0x1000 ≤ off) : ∃ r, checkReg off = some r :=
  Option.ne_none_iff_exists'.mp fun hn => by
    have := checkReg_eq_none.mp hn
    omega

theorem writeReg_refuses {off : Nat} (h : off % 4 ≠ 0 ∨ 0x1000 ≤ off) (w : Word) (s : State) :
    ∃ r, writeReg off w s = .stop r := by
  obtain ⟨r, hr⟩ := checkReg_refuses h
  exact ⟨r, by simp only [writeReg, hr]⟩

theorem readReg_refuses {off : Nat} (h : off % 4 ≠ 0 ∨ 0x1000 ≤ off) (s : State) :
    ∃ r, readReg off s = .stop r := by
  obtain ⟨r, hr⟩ := checkReg_refuses h
  exact ⟨r, by simp only [readReg, hr]⟩

theorem writeReg_of_aligned {off : Nat} (hlt : off < 0x1000) (hal : off % 4 = 0) (h0 : off ≠ 0)
    (w : Word) (s : State) : writeReg off w s = .done (s.setRegs (regWriteAt s.regs off w)) := by
  simp only [writeReg, checkReg_eq_none.mpr ⟨hlt, hal⟩, regOffset, h0, if_false]

theorem readReg_of_aligned {off : Nat} (hlt : off < 0x1000) (hal : off % 4 = 0) (s : State) :
    readReg off s = .done (s.addReply (.word (regReadAt s.regs off))) := by
  simp only [readReg, checkReg_eq_none.mpr ⟨hlt, hal⟩]

/-- The offsets of the RO registers (R11). -/
abbrev readOnlyOffsets : List Nat := [0x04, 0x1C, 0x20, 0x24, 0x28, 0x2C, 0x30, 0x34]

/-- A host write to an RO register is ignored (R133). -/
theorem writeReg_readOnly {off : Nat} (h : off ∈ readOnlyOffsets) (w : Word) (s : State) :
    writeReg off w s = .done s := by
  have hrange : off < 0x1000 ∧ off % 4 = 0 ∧ off ≠ 0 := by fin_cases h <;> decide
  have hkeep : regWriteAt s.regs off w = s.regs := by fin_cases h <;> rfl
  obtain ⟨hlt, hal, h0⟩ := hrange
  rw [writeReg_of_aligned hlt hal h0, hkeep]
  rfl

/-! ## The memory accesses -/

theorem checkMem_refuses {c : Config} {m : MemId} {a : Nat} (h : c.capacity m ≤ a) :
    ∃ r, checkMem c m a = some r :=
  ⟨_, if_neg (Nat.not_lt.mpr h)⟩

theorem writeMem_refuses {m : MemId} {a : Nat} {s : State} (h : m = .cb ∨ s.cfg.capacity m ≤ a)
    (b : Byte) : ∃ r, writeMem m a b s = .stop r := by
  by_cases hm : m = .cb
  · exact ⟨_, if_pos hm⟩
  · obtain ⟨r, hr⟩ := checkMem_refuses (h.resolve_left hm)
    exact ⟨r, by simp only [writeMem, if_neg hm, hr]⟩

theorem readMem_refuses {m : MemId} {a : Nat} {s : State} (h : s.cfg.capacity m ≤ a) :
    ∃ r, readMem m a s = .stop r := by
  obtain ⟨r, hr⟩ := checkMem_refuses h
  exact ⟨r, by simp only [readMem, hr]⟩

/-- Settles O51: a refused access by its width or by the check it does not pass; the write to an RO
register and the read of CMD by what the register map gives them. -/
theorem refusedHostAccesses : Obligations.RefusedHostAccesses := by
  refine fun s e rest h => ⟨fun he => step_refused h ?_, ?_, ?_⟩
  · rcases he with ⟨off, w, rfl, hoff⟩ | ⟨off, rfl, hoff⟩ | ⟨off, b, rfl⟩ | ⟨off, rfl⟩ |
      ⟨m, a, w, rfl⟩ | ⟨m, a, rfl⟩ | ⟨sp, bits, a, rfl⟩ | ⟨m, a, b, rfl, ha⟩ | ⟨m, a, rfl, ha⟩
    · exact writeReg_refuses hoff w _
    · exact readReg_refuses hoff _
    · exact ⟨_, rfl⟩
    · exact ⟨_, rfl⟩
    · exact ⟨_, rfl⟩
    · exact ⟨_, rfl⟩
    · exact ⟨_, rfl⟩
    · exact writeMem_refuses (s := { s with pending := rest }) ha b
    · exact readMem_refuses (s := { s with pending := rest }) ha
  · rintro off w hoff rfl
    exact step_done h (writeReg_readOnly hoff w _)
  · rintro rfl
    exact step_done h (readReg_of_aligned (off := 0) (by decide) (by decide) _)

end Sys2Proof.Machine
end

section
/-! PROOF. What an instruction leaves alone (R54, R62). -/

namespace Sys2Proof.Machine

variable {i : Instr} {s t : State}

/-- No instruction touches the count of resets, the host's lists or the rest of DECODE's stream, and only
a group writes the decoded output. -/
theorem exec_lists (h : exec i s = .next t) :
    t.resets = s.resets ∧ t.pending = s.pending ∧ t.replies = s.replies ∧ t.decIn = s.decIn ∧
      (i.isCommand = true → t.decOut = s.decOut) := by
  rcases exec_cases h with ⟨-, rfl⟩ | ⟨-, -, -, e, rfl, -, -⟩ | ⟨-, o, -, -, rfl⟩ | ⟨-, -, -, rfl⟩ |
    ⟨-, rfl⟩ | ⟨hgroup, bs, rfl⟩
  · exact ⟨rfl, rfl, rfl, rfl, fun _ => rfl⟩
  · exact ⟨rfl, rfl, rfl, rfl, fun _ => rfl⟩
  · exact ⟨rfl, rfl, rfl, rfl, fun _ => rfl⟩
  · exact ⟨rfl, rfl, rfl, rfl, fun _ => rfl⟩
  · exact ⟨rfl, rfl, rfl, rfl, fun _ => rfl⟩
  · exact ⟨rfl, rfl, rfl, rfl, fun hi => absurd (hgroup.symm.trans hi) (by decide)⟩

/-- Only RESET writes an RW register (R54, log 10). -/
theorem exec_operands (hi : i ≠ .reset) (h : exec i s = .next t) :
    t.regs.imgW = s.regs.imgW ∧ t.regs.imgH = s.regs.imgH ∧ t.regs.rasterW = s.regs.rasterW ∧
      t.regs.srcOff = s.regs.srcOff ∧ t.regs.rowLen = s.regs.rowLen := by
  rcases exec_regs_cases h with hreset | ⟨-, hr⟩ | ⟨-, hr⟩ | hr
  · exact absurd hreset hi
  all_goals
    rw [hr]
    exact ⟨rfl, rfl, rfl, rfl, rfl⟩

/-- Settles O55: the memories, the model's lists, the RW registers and the groups each by the lemma
about them. -/
theorem whatInstructionsLeaveAlone : Obligations.WhatInstructionsLeaveAlone := by
  intro i s t h
  obtain ⟨-, him, hrb, hcb⟩ := exec_memories h
  obtain ⟨hresets, hpending, hreplies, hdecIn, hdecOut⟩ := exec_lists h
  refine ⟨him, hresets, hpending, hreplies, hdecIn, hrb.resolve_right, hcb.resolve_right,
    fun hi => exec_operands hi h, fun hi => ?_, hdecOut⟩
  obtain ⟨bs, rfl⟩ := exec_group hi h
  rfl

end Sys2Proof.Machine
end

section
/-! PROOF. A script's events run in order and do not depend on what follows them (R49, R75): with other
events pending, an instruction, an access and a step do the same. -/

namespace Sys2Proof.Machine

open Sys2Proof

/-! ## The same machine with other events pending -/

/-- The machine with the host's remaining events replaced. -/
def State.withPending (p : List Event) (s : State) : State := { s with pending := p }

/-- What a step fetched, with other events pending after it. -/
def Fetched.withPending (p : List Event) : Fetched → Fetched
  | .run i s => .run i (s.withPending p)
  | .done s => .done (s.withPending p)
  | .stop r => .stop r

/-- The outcome of an instruction or a step, with other events pending in its next state. -/
def outcomeWithPending (p : List Event) :
    Host.Outcome State Fault Refusal → Host.Outcome State Fault Refusal
  | .next s => .next (s.withPending p)
  | .fault f => .fault f
  | .refused r => .refused r

@[simp] theorem State.withPending_cfg (p : List Event) (s : State) :
    (s.withPending p).cfg = s.cfg := rfl

variable (p : List Event) (s : State)

theorem rasterizeOriented_withPending (o : Orientation) (w h : Nat) :
    rasterizeOriented o w h (s.withPending p) = (rasterizeOriented o w h s).withPending p := by
  rcases rasterizeOriented_cases o w h s with ⟨hc, hr⟩ | ⟨hc, hr⟩ <;> rw [hr]
  · exact if_pos hc
  · exact if_neg (ne_true_of_eq_false hc)

theorem execRasterize_withPending :
    execRasterize (s.withPending p) = outcomeWithPending p (execRasterize s) := by
  cases ho : orientation s.regs.imgW.toNat s.regs.imgH.toNat s.regs.rasterW.toNat with
  | none =>
    rw [execRasterize_of_none ho]
    exact execRasterize_of_none (s := s.withPending p) ho
  | some o =>
    rw [execRasterize_of_some ho]
    exact (execRasterize_of_some (s := s.withPending p) ho).trans
      (congrArg _ (rasterizeOriented_withPending p s o _ _))

theorem inputRow_withPending : inputRow (s.withPending p) = inputRow s :=
  readBytes_congr fun _ _ => rfl

theorem execCompress_withPending :
    execCompress (s.withPending p) = outcomeWithPending p (execCompress s) := by
  simp only [execCompress, inputRow_withPending, apply_ite (outcomeWithPending p)]
  rfl

/-- An instruction does not depend on the host's remaining events and leaves them alone. -/
theorem exec_withPending (i : Instr) :
    exec i (s.withPending p) = outcomeWithPending p (exec i s) := by
  cases i with
  | rasterize => exact execRasterize_withPending p s
  | compress => exact execCompress_withPending p s
  | nop | reset | illegalCommand | literal | reserved80 | repeatRun => rfl

theorem writeReg_withPending (off : Nat) (w : Word) :
    writeReg off w (s.withPending p) = (writeReg off w s).withPending p := by
  unfold writeReg
  cases checkReg off with
  | some r => rfl
  | none =>
    dsimp only
    rw [apply_ite (Fetched.withPending p)]
    rfl

theorem readReg_withPending (off : Nat) :
    readReg off (s.withPending p) = (readReg off s).withPending p := by
  unfold readReg
  cases checkReg off <;> rfl

theorem writeMem_withPending (m : MemId) (a : Nat) (b : Byte) :
    writeMem m a b (s.withPending p) = (writeMem m a b s).withPending p := by
  unfold writeMem
  rw [State.withPending_cfg, apply_ite (Fetched.withPending p)]
  cases checkMem s.cfg m a with
  | some r => rfl
  | none => cases m <;> rfl

theorem readMem_withPending (m : MemId) (a : Nat) :
    readMem m a (s.withPending p) = (readMem m a s).withPending p := by
  unfold readMem
  rw [State.withPending_cfg]
  cases checkMem s.cfg m a with
  | some r => rfl
  | none => cases m <;> rfl

/-- An access does not depend on the events after it. -/
theorem performEvent_withPending (e : Event) :
    performEvent e (s.withPending p) = (performEvent e s).withPending p := by
  cases e with
  | w32 sp off w =>
    cases sp with
    | reg => exact writeReg_withPending p s off w
    | mem m => rfl
  | r32 sp off =>
    cases sp with
    | reg => exact readReg_withPending p s off
    | mem m => rfl
  | w8 sp a b =>
    cases sp with
    | reg => rfl
    | mem m => exact writeMem_withPending p s m a b
  | r8 sp a =>
    cases sp with
    | reg => rfl
    | mem m => exact readMem_withPending p s m a
  | otherWidth | hardwareReset | runDecoder => rfl

theorem Fetched.complete_withPending (f : Fetched) :
    (f.withPending p).complete = outcomeWithPending p f.complete := by
  cases f with
  | run i t => exact exec_withPending p t i
  | done t => rfl
  | stop r => rfl

variable {p s} {e : Event} {rest : List Event} {t : State}

/-- A step at a given next event does not depend on the events after it. -/
theorem step_withPending (h : s.Next e rest) (ht : step s = .next t) (p : List Event) :
    step (s.withPending (e :: p)) = .next (t.withPending p) := by
  have hnext : (s.withPending (e :: p)).Next e p := ⟨h.1, rfl⟩
  calc step (s.withPending (e :: p))
    _ = (performEvent e ((s.withPending rest).withPending p)).complete := step_event hnext
    _ = outcomeWithPending p (performEvent e (s.withPending rest)).complete := by
      rw [performEvent_withPending, Fetched.complete_withPending]
    _ = outcomeWithPending p (.next t) := congrArg _ ((step_event h).symm.trans ht)

/-- A step takes one event and leaves exactly those after it. -/
theorem step_pending (h : s.Next e rest) (ht : step s = .next t) : t.pending = rest := by
  have hsame : s.withPending (e :: rest) = s := by rw [← h.2]; rfl
  have hstep := step_withPending h ht rest
  rw [hsame, ht] at hstep
  exact congrArg State.pending (Host.Outcome.next.inj hstep)

theorem performEvent_decIn {s t : State} (he : ∀ z, e ≠ .runDecoder z)
    (h : performEvent e s = .done t) : t.decIn = s.decIn := by
  rcases performEvent_done h with ⟨off, w, -, -, -, rfl⟩ | ⟨r, rfl⟩ | ⟨m, a, b, -, -, -, rfl⟩ |
    ⟨-, rfl⟩ | ⟨z, hz, -⟩
  · rfl
  · rfl
  · exact State.storeBytes_decIn s m a [b]
  · rfl
  · exact absurd hz (he z)

/-- No event but `runDecoder` gives DECODE input. -/
theorem step_decIn (h : s.Next e rest) (he : ∀ z, e ≠ .runDecoder z) (ht : step s = .next t) :
    t.decIn = [] := by
  obtain ⟨hz, hp⟩ := h
  rcases step_cases ht with ⟨i, tail, hd, -⟩ | ⟨w, tail, -, -, hexec⟩ | ⟨e', tail, -, hp', hev⟩ |
    ⟨-, hp', -⟩
  · rw [hz] at hd
    cases hd
  · obtain ⟨-, -, -, hkeep, -⟩ := exec_lists hexec
    exact hkeep.trans hz
  · cases hp.symm.trans hp'
    exact (performEvent_decIn he hev).trans hz
  · cases hp.symm.trans hp'

/-- A run that answers a next state is its first step and the run from there. -/
theorem run_succ_eq_next {M : Host.Core} {k : Nat} {s t : M.State} :
    M.run (k + 1) s = .next t ↔ ∃ u, M.step s = .next u ∧ M.run k u = .next t := by
  rw [Host.Core.run]
  cases M.step s <;> simp

/-- Settles O52, by induction on the events: each step takes one, and does the same with others after
it. -/
theorem scriptsRunInOrder : Obligations.ScriptsRunInOrder := by
  intro es rest
  induction es with
  | nil =>
    rintro s t hz hp - ⟨⟩
    exact ⟨hz, hp, rfl⟩
  | cons e es ih =>
    intro s t hz hp hes hrun
    have hnext : s.Next e (es ++ rest) := ⟨hz, hp⟩
    obtain ⟨he, hes⟩ := List.forall_mem_cons.mp hes
    obtain ⟨u, hu, hrun⟩ := run_succ_eq_next.mp hrun
    obtain ⟨htz, htp, halone⟩ := ih u t (step_decIn hnext he hu) (step_pending hnext hu) hes hrun
    exact ⟨htz, htp, run_succ_eq_next.mpr ⟨_, step_withPending hnext hu es, halone⟩⟩

end Sys2Proof.Machine
end

section
/-! PROOF. The command words: a word is one of the four defined commands or an illegal command that keeps
its fields, and encoding gives the word back (R60, R61, R71, R72). -/

namespace Sys2Proof

@[simp] theorem cmdOp_append (zero : BitVec 24) (op : BitVec 8) : cmdOp (zero ++ op) = op :=
  BitVec.extractLsb'_append_eq_right

@[simp] theorem cmdZero_append (zero : BitVec 24) (op : BitVec 8) : cmdZero (zero ++ op) = zero :=
  BitVec.extractLsb'_append_eq_left

theorem decodeCmd_of_illegalFields {w : Word} (h : Instr.IllegalFields (cmdOp w) (cmdZero w)) :
    decodeCmd w = .illegalCommand (cmdOp w) (cmdZero w) := by
  rcases h with hzero | hop
  · exact if_pos hzero
  · have hne {v : BitVec 8} (hv : ¬(3 ≤ v.toNat ∧ v.toNat ≤ 254)) : cmdOp w ≠ v :=
      fun h => hv (h ▸ hop)
    simp only [decodeCmd, hne (v := 0x00) (by decide), hne (v := 0x01) (by decide),
      hne (v := 0x02) (by decide), hne (v := 0xFF) (by decide), if_false, ite_self]

theorem decodeCmd_wellFormed (w : Word) : (decodeCmd w).WellFormed = true := by
  unfold decodeCmd
  split_ifs with hzero h0 h1 h2 h3
  · exact decide_eq_true (.inl hzero)
  · rfl
  · rfl
  · rfl
  · rfl
  · exact decide_eq_true (.inr (by bv_omega))

/-- The illegal words are those with a reserved bit set or an undefined OP (R71). -/
theorem exists_decodeCmd_eq_illegalCommand (w : Word) :
    (∃ op zero, decodeCmd w = .illegalCommand op zero) ↔
      Instr.IllegalFields (cmdOp w) (cmdZero w) := by
  constructor
  · rintro ⟨op, zero, h⟩
    have hcode := encode_decodeCmd w
    have hwf := decodeCmd_wellFormed w
    rw [h] at hcode hwf
    obtain rfl : zero ++ op = w := Code.cmdw.inj hcode
    rw [cmdOp_append, cmdZero_append]
    exact of_decide_eq_true hwf
  · exact fun h => ⟨_, _, decodeCmd_of_illegalFields h⟩

/-- Settles O4: decoding is injective, so a defined command's word is its only one. -/
theorem everyCmdValueIsDefinedOrIllegal : Obligations.EveryCmdValueIsDefinedOrIllegal := fun w =>
  ⟨decodeCmd_injective.eq_iff (b := 0x00#32), decodeCmd_injective.eq_iff (b := 0x01#32),
    decodeCmd_injective.eq_iff (b := 0x02#32), decodeCmd_injective.eq_iff (b := 0xFF#32),
    exists_decodeCmd_eq_illegalCommand w⟩

/-- Settles O1: each word and each stream is written out, so decoding it is an evaluation. -/
theorem decodeReadsTheTablesWords : Obligations.DecodeReadsTheTablesWords :=
  ⟨rfl, rfl, rfl, rfl, rfl, rfl, rfl, rfl, rfl, rfl, rfl⟩

end Sys2Proof

namespace Sys2Proof.Machine

theorem exec_illegalCommand (op : BitVec 8) (zero : BitVec 24) (s : State) :
    exec (.illegalCommand op zero) s = .next (raiseError .illegalCmd s) := rfl

/-- Settles O16: a word with illegal fields is an illegal command, and ILLEGAL_CMD records nothing besides
STATUS. -/
theorem illegalCommandWritesOnlyStatus : Obligations.IllegalCommandWritesOnlyStatus := by
  refine ⟨fun s op zero => ?_, fun s w rest hnext hfields => ?_, statusWord_illegalCmd⟩
  · rw [exec_illegalCommand, raiseError_eq]
    rfl
  · rw [step_cmdWrite hnext, decodeCmd_of_illegalFields hfields, exec_illegalCommand, raiseError_eq]
    rfl

end Sys2Proof.Machine
end

section
/-! PROOF. The groups of the stream: their control bytes, and the group decoder case by case (R66 to
R69). -/

namespace Sys2Proof

/-! ## Control bytes -/

theorem literalControl_toNat {payload : List Byte} (h : Instr.LiteralLength payload) :
    (literalControl payload).toNat = payload.length - 1 := by
  obtain ⟨-, hle⟩ := h
  rw [literalControl, BitVec.toNat_ofNat]
  omega

theorem repeatControl_toNat (n : BitVec 7) : (repeatControl n).toNat = 128 + n.toNat := by
  rw [repeatControl, BitVec.toNat_append, ← Nat.shiftLeft_add_eq_or_of_lt n.isLt]
  rfl

theorem repeatField_pos {n : BitVec 7} (h : Instr.RepeatField n) : 0 < n.toNat := by
  bv_omega

theorem repeatControl_extractLsb' (n : BitVec 7) : (repeatControl n).extractLsb' 0 7 = n :=
  BitVec.extractLsb'_append_eq_right

/-- The count field of a control byte above 127 is what the byte exceeds 128 by (R67). -/
theorem toNat_eq_add_countField {c : Byte} (h : 128 ≤ c.toNat) :
    c.toNat = 128 + (c.extractLsb' 0 7).toNat := by
  have := c.isLt
  rw [BitVec.extractLsb'_toNat]
  omega

theorem repeatControl_countField {c : Byte} (h : 128 ≤ c.toNat) :
    repeatControl (c.extractLsb' 0 7) = c :=
  BitVec.eq_of_toNat_eq ((repeatControl_toNat _).trans (toNat_eq_add_countField h).symm)

/-! ## The group decoder -/

variable {c : Byte} {tail rest : List Byte}

theorem decodeGroup_literal (hc : c.toNat ≤ 127) (hlen : c.toNat + 1 ≤ tail.length) :
    decodeGroup (c :: tail) =
      .ok (.literal (tail.take (c.toNat + 1)), tail.drop (c.toNat + 1)) := by
  simp only [decodeGroup, hc, Nat.not_lt.mpr hlen, if_true, if_false]

theorem decodeGroup_reserved80 (tail : List Byte) :
    decodeGroup (128#8 :: tail) = .ok (.reserved80, tail) := rfl

theorem decodeGroup_repeatRun (hc : 129 ≤ c.toNat) (v : Byte) (tail : List Byte) :
    decodeGroup (c :: v :: tail) = .ok (.repeatRun (c.extractLsb' 0 7) v, tail) := by
  have hlit : ¬c.toNat ≤ 127 := by omega
  have hres : c.toNat ≠ 128 := by omega
  simp only [decodeGroup, hlit, hres, if_false]

/-- A stream that ends before the payload its first control byte announces (R117). -/
theorem decodeGroup_truncated (hc : c.toNat ≠ 128)
    (hlen : tail.length < if c.toNat ≤ 127 then c.toNat + 1 else 1) :
    decodeGroup (c :: tail) = .error .truncated := by
  by_cases hlit : c.toNat ≤ 127
  · rw [if_pos hlit] at hlen
    simp only [decodeGroup, hlit, hlen, if_true]
  · rw [if_neg hlit] at hlen
    obtain rfl : tail = [] := List.length_eq_zero_iff.mp (Nat.lt_one_iff.mp hlen)
    simp only [decodeGroup, hlit, hc, if_false]

/-! ## Decoding an encoded group -/

theorem decodeGroup_encode_literal {payload : List Byte} (h : Instr.LiteralLength payload)
    (rest : List Byte) :
    decodeGroup (literalControl payload :: (payload ++ rest)) = .ok (.literal payload, rest) := by
  have hc := literalControl_toNat h
  obtain ⟨hpos, hle⟩ := h
  have hlen : (literalControl payload).toNat + 1 = payload.length := by omega
  rw [decodeGroup_literal (by omega) (by rw [hlen, List.length_append]; omega), hlen,
    List.take_left, List.drop_left]

theorem decodeGroup_encode_repeatRun {n : BitVec 7} (h : Instr.RepeatField n) (v : Byte)
    (rest : List Byte) :
    decodeGroup (repeatControl n :: v :: rest) = .ok (.repeatRun n v, rest) := by
  have hpos := repeatField_pos h
  have hc := repeatControl_toNat n
  rw [decodeGroup_repeatRun (by omega), repeatControl_extractLsb']

/-- Settles O2, by cases on the instruction: the fields of an illegal command's word and the control byte
of a group are read back. -/
theorem decodeUndoesEncode : Obligations.DecodeUndoesEncode := by
  intro i hwf
  cases i with
  | nop | rasterize | compress | reset => rfl
  | illegalCommand op zero =>
    have hfields : Instr.IllegalFields op zero := of_decide_eq_true hwf
    exact (decodeCmd_of_illegalFields (by simpa using hfields)).trans (by simp)
  | literal payload => exact decodeGroup_encode_literal (of_decide_eq_true hwf)
  | reserved80 => exact decodeGroup_reserved80
  | repeatRun n v => exact decodeGroup_encode_repeatRun (of_decide_eq_true hwf) v

/-! ## Encoding a decoded group -/

/-- The payload that a literal control byte announces has that control byte (R67). -/
theorem literalControl_take (hlen : c.toNat + 1 ≤ tail.length) :
    literalControl (tail.take (c.toNat + 1)) = c := by
  rw [literalControl, List.length_take_of_le hlen, Nat.add_sub_cancel, BitVec.ofNat_toNat,
    BitVec.setWidth_eq]

theorem encode_decodeGroup {z : List Byte} {i : Instr} (h : decodeGroup z = .ok (i, rest)) :
    i.WellFormed = true ∧ ∃ bytes, encode i = .ctrl bytes ∧ bytes ++ rest = z := by
  rcases Machine.decodeGroup_cases h with ⟨c, tail, rfl, hc, hlen, rfl, rfl⟩ | ⟨c, rfl, hc, rfl⟩ |
    ⟨c, v, rfl, hc, rfl⟩
  · refine ⟨decide_eq_true ?_, _, rfl, ?_⟩
    · rw [Instr.LiteralLength, List.length_take_of_le hlen]
      omega
    · rw [List.cons_append, List.take_append_drop, literalControl_take hlen]
  · exact ⟨rfl, _, rfl, congrArg (· :: rest) (BitVec.eq_of_toNat_eq hc.symm)⟩
  · have hcount := toNat_eq_add_countField (c := c) (by omega)
    refine ⟨decide_eq_true fun h0 => ?_, _, rfl, ?_⟩
    · rw [h0] at hcount
      exact hc.ne' hcount
    · rw [repeatControl_countField (by omega)]
      rfl

/-- Settles O3: a command word is its two fields, a decoded group its control byte and payload. -/
theorem encodeUndoesDecode : Obligations.EncodeUndoesDecode :=
  ⟨fun w => ⟨decodeCmd_wellFormed w, encode_decodeCmd w⟩, fun _ _ _ => encode_decodeGroup⟩

/-- Settles O6: a literal's payload and the rest are together what follows the control byte. -/
theorem groupLengths : Obligations.GroupLengths := by
  intro c tail rest i h
  rcases Machine.decodeGroup_cases h with ⟨_, _, ⟨⟩, hc, hlen, -, rfl⟩ | ⟨_, ⟨⟩, hc, -⟩ | ⟨_, v, ⟨⟩, hc, -⟩
  · rw [List.length_cons, List.length_drop]
    omega
  · omega
  · simp only [List.length_cons]
    omega

end Sys2Proof

namespace Sys2Proof.Machine

/-! ## What the groups do -/

theorem exec_literal (payload : List Byte) (s : State) :
    exec (.literal payload) s = .next (s.appendDecoded payload) := rfl

theorem exec_repeatRun (n : BitVec 7) (v : Byte) (s : State) :
    exec (.repeatRun n v) s = .next (s.appendDecoded (List.replicate (129 - n.toNat) v)) := rfl

theorem exec_reserved80 (s : State) : exec .reserved80 s = .refused .reservedControlByte := rfl

/-- Settles O45: appending to the decoded output changes that field alone. -/
theorem groupsAppendTheirBytes : Obligations.GroupsAppendTheirBytes := fun s =>
  ⟨fun payload => exec_literal payload s, fun n v => exec_repeatRun n v s⟩

theorem repeatRunControl_toNat {k : Nat} (h2 : 2 ≤ k) (h127 : k ≤ 127) :
    (repeatRunControl k).toNat = 257 - k := by
  rw [repeatRunControl, BitVec.toNat_ofNat]
  omega

/-- Settles O5: the decoder's cases by the control byte, with the count field `c - 128` of a repeat. -/
theorem controlByteMap : Obligations.ControlByteMap := by
  refine ⟨fun c tail hc hlen => ⟨decodeGroup_literal hc hlen, exec_literal _⟩, decodeGroup_reserved80,
    fun c v tail hc => ?_, fun payload h1 h128 => literalControl_toNat ⟨h1, h128⟩, fun k h2 h127 => ?_⟩
  · have hcount := toNat_eq_add_countField (c := c) (by omega)
    refine ⟨_, decodeGroup_repeatRun hc v tail, hcount, fun s => ?_⟩
    have htimes : 257 - c.toNat = 129 - (c.extractLsb' 0 7).toNat := by omega
    rw [htimes]
    exact exec_repeatRun _ v s
  · rw [repeatRunControl_toNat h2 h127]
    omega

/-! ## Refused groups -/

variable {s : State} {i : Instr} {rest : List Byte}

theorem ne_nil_of_decodeGroup {z : List Byte} {x : Except DecodeError (Instr × List Byte)}
    (h : decodeGroup z = x) (hx : x ≠ .error .endOfStream) : z ≠ [] := by
  rintro rfl
  exact hx h.symm

/-- A group of DECODE's stream runs before any event of the host (log 5). -/
theorem step_group (h : decodeGroup s.decIn = .ok (i, rest)) :
    step s = exec i { s with decIn := rest } := by
  rw [step, fetchNext_group (ne_nil_of_decodeGroup h nofun), fetchGroup, h]

theorem step_truncated (h : decodeGroup s.decIn = .error .truncated) :
    step s = .refused .truncatedGroup := by
  rw [step, fetchNext_group (ne_nil_of_decodeGroup h nofun), fetchGroup, h]

/-- DECODE refuses a stream whose first group the group decoder finds cut off. -/
theorem decodeStream_truncated {c : Byte} {tail : List Byte} (hc : c.toNat ≠ 128)
    (hlen : tail.length < if c.toNat ≤ 127 then c.toNat + 1 else 1) :
    decodeStream (c :: tail) = .error .truncated := by
  by_cases hlit : c.toNat ≤ 127
  · rw [if_pos hlit] at hlen
    simp only [decodeStream, List.length_cons, decodeStreamFuel, hlit, if_true, gt_iff_lt, hlen]
  · rw [if_neg hlit] at hlen
    obtain rfl : tail = [] := List.length_eq_zero_iff.mp (Nat.lt_one_iff.mp hlen)
    simp only [decodeStream, List.length_cons, decodeStreamFuel, hlit, hc, if_false]

/-- Settles O46: the step runs RESERVED_80 or finds the group cut off, and DECODE meets the same control
byte and length. -/
theorem refusedGroups : Obligations.RefusedGroups := by
  refine ⟨exec_reserved80, fun s tail hz => ⟨?_, rfl⟩, fun s c tail hz hc hlen =>
    ⟨step_truncated ?_, decodeStream_truncated hc hlen⟩⟩
  · have hgroup : decodeGroup s.decIn = .ok (.reserved80, tail) := hz ▸ decodeGroup_reserved80 tail
    exact (step_group hgroup).trans (exec_reserved80 _)
  · rw [hz]
    exact decodeGroup_truncated hc hlen

end Sys2Proof.Machine
end

section
/-! PROOF. The compressor emits whole groups: literal runs of 1 to 127 bytes and repeat runs of 2 to 127
(R70, R101, R107, R108). -/

namespace Sys2Proof.Machine

open Sys2Proof

/-! ## The bounds of the run state -/

variable {r : RunState}

theorem runStart_good : runStart.Good := by decide

theorem consumeLit_good (c : Byte) (hm : r.mode = .lit) (h : r.Good) : (consumeLit c r).Good := by
  obtain ⟨hcount, -, hlit, -⟩ := h
  rw [consumeLit_eq]
  split
  · refine ⟨fun _ => ?_, fun _ => flushLit_lit _, ?_, ?_⟩ <;> simp [hcount hm]
  · refine ⟨fun _ => hcount hm, fun hrep => ?_, ?_, ?_⟩
    · cases hm.symm.trans hrep
    · simp only [List.length_append, List.length_singleton]
      omega
    · simp [hcount hm]

theorem consumeRep_good (eq : Bool) (hm : r.mode = .rep) (h : r.Good) : (consumeRep eq r).Good := by
  obtain ⟨-, hlit, -, hcount⟩ := h
  rw [consumeRep_eq]
  split
  · refine ⟨fun _ => rfl, nofun, ?_, Nat.zero_le _⟩
    simp [hlit hm]
  · split
    · refine ⟨fun _ => rfl, fun _ => hlit hm, ?_, Nat.zero_le _⟩
      simp [hlit hm]
    · refine ⟨fun hmode => ?_, fun _ => hlit hm, ?_, ?_⟩
      · cases hm.symm.trans hmode
      · simp [hlit hm]
      · change r.count + 1 ≤ 126
        omega

/-- The state at the entry of repeat mode (R103). -/
theorem enterRepeat_good (c : Byte) (r : RunState) :
    ({ flushLit r with mode := .rep, value := c, count := 0 } : RunState).Good :=
  ⟨nofun, fun _ => flushLit_lit r, by simp, Nat.zero_le _⟩

/-- Every step of the scan keeps the bounds of R101. -/
theorem scanStep_good (c : Byte) (eq : Bool) (h : r.Good) : (scanStep c eq r).Good := by
  rcases scanStep_cases c r eq with ⟨hm, -, he⟩ | ⟨-, -, he⟩ | ⟨hm, he⟩ <;> rw [he]
  · exact consumeLit_good c hm h
  · exact consumeRep_good true rfl (enterRepeat_good c r)
  · exact consumeRep_good eq hm h

/-! ## Concatenations of groups the compressor may emit -/

/-- Bytes that are a sequence of groups the compressor may emit (R70). -/
def EmittedBytes (bs : List Byte) : Prop :=
  ∃ gs : List Instr, (∀ g ∈ gs, Emitted g) ∧ bs = gs.flatMap (fun g => (encode g).bytes)

theorem emittedBytes_nil : EmittedBytes [] := ⟨[], nofun, rfl⟩

theorem emittedBytes_encode {g : Instr} (h : Emitted g) : EmittedBytes (encode g).bytes :=
  ⟨[g], by simpa using h, by simp⟩

theorem EmittedBytes.append {bs cs : List Byte} (hb : EmittedBytes bs) (hc : EmittedBytes cs) :
    EmittedBytes (bs ++ cs) := by
  obtain ⟨gs, hgs, rfl⟩ := hb
  obtain ⟨hs, hhs, rfl⟩ := hc
  refine ⟨gs ++ hs, fun g hg => ?_, List.flatMap_append.symm⟩
  exact (List.mem_append.mp hg).elim (hgs g) (hhs g)

theorem emittedBytes_literal {p : List Byte} (hpos : 1 ≤ p.length) (hle : p.length ≤ 127) :
    EmittedBytes (BitVec.ofNat 8 (p.length - 1) :: p) :=
  emittedBytes_encode (g := .literal p) (.inl ⟨p, rfl, hpos, hle⟩)

/-- A repeat run of `k` bytes has the count field `129 - k` (R67, R108). -/
theorem repeatRunControl_eq {k : Nat} (h2 : 2 ≤ k) (h127 : k ≤ 127) :
    repeatRunControl k = repeatControl (BitVec.ofNat 7 (129 - k)) := by
  apply BitVec.eq_of_toNat_eq
  rw [repeatRunControl_toNat h2 h127, repeatControl_toNat, BitVec.toNat_ofNat]
  omega

/-- The pair of a run of `k` bytes is a repeat group; for `k = 1`, after a forced flush, it is the literal
group `00 v` (R108). -/
theorem emittedBytes_repeatPair {k : Nat} (v : Byte) (hpos : 1 ≤ k) (h127 : k ≤ 127) :
    EmittedBytes [repeatRunControl k, v] := by
  by_cases h1 : k = 1
  · subst h1
    exact emittedBytes_literal (p := [v]) (Nat.le_refl 1) (Nat.le_add_left 1 126)
  · have h2 : 2 ≤ k := by omega
    have hfield : 2 ≤ (BitVec.ofNat 7 (129 - k)).toNat := by
      rw [BitVec.toNat_ofNat]
      omega
    rw [repeatRunControl_eq h2 h127]
    exact emittedBytes_encode (.inr ⟨_, v, rfl, hfield⟩)

/-! ## The scan -/

theorem flushLit_emits (hlit : r.lit.length ≤ 127) (h : EmittedBytes r.out) :
    EmittedBytes (flushLit r).out := by
  rw [flushLit_out]
  refine h.append ?_
  split
  · exact emittedBytes_nil
  · next hne => exact emittedBytes_literal (List.length_pos_iff.mpr hne) hlit

theorem flushRep_emits (hpos : 1 ≤ r.count) (hcount : r.count ≤ 127) (h : EmittedBytes r.out) :
    EmittedBytes (flushRep r).out :=
  h.append (emittedBytes_repeatPair r.value hpos hcount)

theorem consumeLit_emits (c : Byte) (hr : r.Good) (h : EmittedBytes r.out) :
    EmittedBytes (consumeLit c r).out := by
  obtain ⟨-, -, hlit, -⟩ := hr
  rw [consumeLit_eq]
  split
  · refine flushLit_emits ?_ h
    simp only [List.length_append, List.length_singleton]
    omega
  · exact h

theorem consumeRep_emits (eq : Bool) (hr : r.Good) (h : EmittedBytes r.out) :
    EmittedBytes (consumeRep eq r).out := by
  obtain ⟨-, -, -, hcount⟩ := hr
  have hflush : EmittedBytes (flushRep { r with count := r.count + 1 }).out :=
    flushRep_emits (Nat.le_add_left 1 _) (Nat.succ_le_succ hcount) h
  rw [consumeRep_eq]
  split
  · exact hflush
  · split
    · exact hflush
    · exact h

theorem scanStep_emits (c : Byte) (eq : Bool) (hr : r.Good) (h : EmittedBytes r.out) :
    EmittedBytes (scanStep c eq r).out := by
  rcases scanStep_cases c r eq with ⟨-, -, he⟩ | ⟨-, -, he⟩ | ⟨-, he⟩ <;> rw [he]
  · exact consumeLit_emits c hr h
  · obtain ⟨-, -, hlit, -⟩ := hr
    exact consumeRep_emits true (enterRepeat_good c r) (flushLit_emits (Nat.le_succ_of_le hlit) h)
  · exact consumeRep_emits eq hr h

theorem scan_emits (b : List Byte) (hr : r.Good) (h : EmittedBytes r.out) :
    (scan b r).Good ∧ EmittedBytes (scan b r).out := by
  induction b generalizing r with
  | nil => exact ⟨hr, h⟩
  | cons c rest ih => exact ih (scanStep_good c _ hr) (scanStep_emits c _ hr h)

theorem compressBytes_emits (b : List Byte) : EmittedBytes (compressBytes b) := by
  obtain ⟨⟨-, -, hlit, -⟩, hout⟩ := scan_emits b runStart_good emittedBytes_nil
  exact flushLit_emits (Nat.le_succ_of_le hlit) hout

/-- A group the compressor may emit has a control byte in 0 to 126 or 130 to 255 (R70). -/
theorem emitted_controlByte {g : Instr} (h : Emitted g) :
    ∃ c payload, (encode g).bytes = c :: payload ∧ (c.toNat ≤ 126 ∨ 130 ≤ c.toNat) := by
  rcases h with ⟨p, rfl, hpos, hle⟩ | ⟨n, v, rfl, hn⟩
  · refine ⟨_, p, rfl, .inl ?_⟩
    rw [literalControl_toNat ⟨hpos, Nat.le_succ_of_le hle⟩]
    omega
  · refine ⟨_, [v], rfl, .inr ?_⟩
    rw [repeatControl_toNat]
    omega

/-- Settles O37: the scan emits whole groups, by induction on the input, and the group decoder does not
share the compressor's limits. -/
theorem emittedControlBytes : Obligations.EmittedControlBytes := by
  refine ⟨compressBytes_emits, fun _ => emitted_controlByte, fun payload rest hlen => ?_,
    fun v rest => ⟨decodeGroup_encode_repeatRun (n := 1) (by decide) v rest, rfl⟩⟩
  have h := decodeGroup_encode_literal (payload := payload) (by rw [Instr.LiteralLength]; omega) rest
  rwa [literalControl, hlen] at h

end Sys2Proof.Machine
end

section
/-! PROOF. The pseudo-statements of host scripts (R74). -/

namespace Sys2Proof.Machine

/-- Settles O53: a pseudo-statement stands for the same transactions as its expansion. -/
theorem pseudoStatements : Obligations.PseudoStatements :=
  ⟨rfl, rfl, rfl, rfl, fun _ _ => rfl, fun _ _ _ _ => rfl⟩

end Sys2Proof.Machine
end

section
/-! PROOF. The luminance threshold and the two sides of it (R84 to R86). -/

namespace Sys2Proof.Machine

open Sys2Proof

theorem leHalf_iff (p : Pixel) : leHalf p = true ↔ lumSum p ≤ 32512 := decide_eq_true_iff

/-- A luminance sum over its greatest value is at most one half when twice the sum is at most that
value. -/
theorem luminance_le_half_iff (n : ℕ) :
    (n : ℚ) / (255 * (55 + 182 + 18)) ≤ 1 / 2 ↔ 2 * n ≤ 65025 := by
  have hcast : (2 * n : ℚ) ≤ 65025 ↔ 2 * n ≤ 65025 := by norm_cast
  rw [← hcast]
  constructor <;> intro h <;> linarith

/-- No luminance is one half: 65025 is odd (R85). -/
theorem luminance_ne_half (n : ℕ) : (n : ℚ) / (255 * (55 + 182 + 18)) ≠ 1 / 2 := by
  intro h
  have hdouble : (2 * n : ℚ) = 65025 := by linarith
  have : 2 * n = 65025 := by exact_mod_cast hdouble
  omega

/-- Settles O21: the products are bounded by their bytes' range, and the comparison with one half is
cleared of its denominator. -/
theorem luminanceThreshold : Obligations.LuminanceThreshold := by
  refine ⟨fun p => ?_, fun v => ?_⟩
  · have hr := p.red.isLt
    have hg := p.green.isLt
    have hb := p.blue.isLt
    have hsum : lumSum p = 55 * p.red.toNat + 182 * p.green.toNat + 18 * p.blue.toNat := rfl
    have hdouble : leHalf p = true ↔ 2 * lumSum p ≤ 65025 := by rw [leHalf_iff]; omega
    exact ⟨hsum, by omega, by omega, by omega, by omega, luminance_ne_half _,
      hdouble.trans (luminance_le_half_iff _).symm, hdouble, leHalf_iff p⟩
  · have hgrey : lumSum { red := v, green := v, blue := v } =
        55 * v.toNat + 182 * v.toNat + 18 * v.toNat := rfl
    rw [leHalf_iff, hgrey]
    omega

/-- Settles O22: DARK_GT_HALF negates the threshold. -/
theorem polarityChoosesTheSide : Obligations.PolarityChoosesTheSide := fun p =>
  ⟨leHalf_iff p, by
    calc dark .darkGtHalf p = true
      _ ↔ ¬ leHalf p = true := by simp [dark]
      _ ↔ 32513 ≤ lumSum p := by rw [leHalf_iff]; omega⟩

end Sys2Proof.Machine
end

section
/-! PROOF. The index maps of the two paths and their inverses (R82, R83, R94). -/

namespace Sys2Proof.Machine

open Sys2Proof

theorem rowMajor_lt {w h r c : Nat} (hr : r < h) (hc : c < w) : r * w + c < w * h := by
  rw [Nat.mul_comm r w, Nat.mul_comm w h]
  exact Nat.mul_add_lt_mul_of_lt_of_lt hr hc

theorem rowMajor_eq_iff {w r c k : Nat} (hc : c < w) : r * w + c = k ↔ r = k / w ∧ c = k % w := by
  have hunique : k / w = r ∧ k % w = c ↔ c + w * r = k ∧ c < w :=
    Nat.div_mod_unique (Nat.zero_lt_of_lt hc)
  rw [eq_comm (a := r), eq_comm (a := c), hunique, and_iff_left hc, Nat.mul_comm, Nat.add_comm]

/-- The column of the output pixel that input pixel k becomes, in an image of width w. -/
def outputColumn (o : Orientation) (w k : Nat) : Nat :=
  match o with
  | .flip => w - 1 - k % w
  | .transpose => k / w

/-- The row of the output pixel that input pixel k becomes, in an image of width w. -/
def outputRow (o : Orientation) (w k : Nat) : Nat :=
  match o with
  | .flip => k / w
  | .transpose => k % w

variable {o : Orientation} {w h x y k : Nat}

theorem sourceIndex_lt (hx : x < orientedWidth o w h) (hy : y < orientedHeight o w h) :
    sourceIndex o w x y < w * h := by
  cases o with
  | flip =>
    have hx : x < w := hx
    exact rowMajor_lt hy (by omega)
  | transpose => exact rowMajor_lt hx hy

/-- An output pixel has source k exactly when it stands at the output position of k. -/
theorem sourceIndex_eq_iff (hx : x < orientedWidth o w h) (hy : y < orientedHeight o w h) :
    sourceIndex o w x y = k ↔ x = outputColumn o w k ∧ y = outputRow o w k := by
  cases o with
  | flip =>
    have hx : x < w := hx
    have hmod : k % w < w := Nat.mod_lt _ (by omega)
    have hmirror : w - 1 - x = k % w ↔ x = w - 1 - k % w := by omega
    exact (rowMajor_eq_iff (by omega)).trans ((and_congr_right fun _ => hmirror).trans and_comm)
  | transpose => exact rowMajor_eq_iff hy

theorem outputPosition_lt (hk : k < w * h) :
    outputColumn o w k < orientedWidth o w h ∧ outputRow o w k < orientedHeight o w h := by
  have hw : 0 < w := Nat.pos_of_lt_mul_right hk
  have hmod : k % w < w := Nat.mod_lt _ hw
  have hdiv : k / w < h := Nat.div_lt_of_lt_mul hk
  cases o with
  | flip => exact ⟨show w - 1 - k % w < w by omega, hdiv⟩
  | transpose => exact ⟨hdiv, hmod⟩

end Sys2Proof.Machine
end

section
/-! PROOF. A success of RASTERIZE: when it is met, and everything it leaves behind (R87 to R91). -/

namespace Sys2Proof.Machine

open Sys2Proof

/-- The height of the output image on a path (R81). -/
def State.outHeight (s : State) (o : Orientation) : Nat :=
  orientedHeight o s.regs.imgW.toNat s.regs.imgH.toNat

/-- The raster buffer of the image in IM on a path. -/
def State.raster (s : State) (o : Orientation) : List Byte :=
  rasterBytes s o s.regs.imgW.toNat s.regs.rasterW.toNat (s.outHeight o)

/-- RASTERIZE chooses the path and neither the image nor the raster buffer is over its capacity. -/
structure State.Rasterizes (s : State) (o : Orientation) : Prop where
  oriented : orientation s.regs.imgW.toNat s.regs.imgH.toNat s.regs.rasterW.toNat = some o
  imageFits : s.regs.imgW.toNat * s.regs.imgH.toNat ≤ s.cfg.imCap
  rasterFits : rowStride s.regs.rasterW.toNat * s.outHeight o ≤ s.cfg.rbCap

/-- The state a success leaves. -/
def State.rasterized (s : State) (o : Orientation) : State :=
  succeed ((s.storeBytes .rb 0 (s.raster o)).setRegs
    (rasterResults s.regs o s.regs.rasterW.toNat (s.outHeight o)))

variable {s t : State} {o : Orientation}

theorem State.Rasterizes.orientedWidth (h : s.Rasterizes o) :
    orientedWidth o s.regs.imgW.toNat s.regs.imgH.toNat = s.regs.rasterW.toNat :=
  orientedWidth_eq h.oriented

theorem State.Rasterizes.size (h : s.Rasterizes o) :
    s.outHeight o * s.regs.rasterW.toNat = s.regs.imgW.toNat * s.regs.imgH.toNat := by
  rw [← h.orientedWidth, Nat.mul_comm]
  exact orientedSize_eq o _ _

theorem exec_rasterize_of_rasterizes (h : s.Rasterizes o) :
    exec .rasterize s = .next (s.rasterized o) := by
  have hfits := overCapacity_eq_false.mpr ⟨h.imageFits, h.rasterFits⟩
  rw [← h.orientedWidth] at hfits
  calc exec .rasterize s
    _ = .next (rasterizeOriented o s.regs.imgW.toNat s.regs.imgH.toNat s) :=
      execRasterize_of_some h.oriented
    _ = .next (s.rasterized o) := by
      rw [State.rasterized, State.raster, ← h.orientedWidth]
      exact congrArg _ (if_neg (ne_true_of_eq_false hfits))

/-- A RASTERIZE that ends without an error is a success on one of the two paths. -/
theorem exec_rasterize_success (h : exec .rasterize s = .next t) (herr : t.regs.status.err = false) :
    ∃ o, s.Rasterizes o ∧ t = s.rasterized o := by
  cases ho : orientation s.regs.imgW.toNat s.regs.imgH.toNat s.regs.rasterW.toNat with
  | none =>
    cases (execRasterize_of_none ho).symm.trans h
    cases herr
  | some o =>
    cases (execRasterize_of_some ho).symm.trans h
    rcases rasterizeOriented_cases o s.regs.imgW.toNat s.regs.imgH.toNat s with
      ⟨-, hr⟩ | ⟨hfits, hr⟩
    · rw [hr] at herr
      cases herr
    · rw [orientedWidth_eq ho] at hfits hr
      obtain ⟨him, hrb⟩ := overCapacity_eq_false.mp hfits
      exact ⟨o, ⟨ho, him, hrb⟩, hr⟩

/-! ## The registers -/

theorem State.outHeight_lt (s : State) (o : Orientation) : s.outHeight o < 65536 :=
  (orientedSides_lt o s.regs.imgW.isLt s.regs.imgH.isLt).2

theorem rowStride_rasterW_le (s : State) : rowStride s.regs.rasterW.toNat ≤ 8192 := by
  have := s.regs.rasterW.isLt
  unfold rowStride
  omega

theorem rasterized_stride (s : State) (o : Orientation) :
    (s.rasterized o).regs.stride.toNat = rowStride s.regs.rasterW.toNat :=
  (BitVec.toNat_ofNat ..).trans
    (Nat.mod_eq_of_lt (Nat.lt_of_le_of_lt (rowStride_rasterW_le s) (by decide)))

theorem rasterized_outH (s : State) (o : Orientation) :
    (s.rasterized o).regs.outH.toNat = s.outHeight o :=
  (BitVec.toNat_ofNat ..).trans (Nat.mod_eq_of_lt (s.outHeight_lt o))

/-- BUF_LEN does not wrap: a stride is at most 8192 bytes and an image has less than 65536 rows. -/
theorem rasterized_bufLen (s : State) (o : Orientation) :
    (s.rasterized o).regs.bufLen.toNat = rowStride s.regs.rasterW.toNat * s.outHeight o := by
  refine (BitVec.toNat_ofNat ..).trans (Nat.mod_eq_of_lt ?_)
  calc rowStride s.regs.rasterW.toNat * s.outHeight o
    _ ≤ 8192 * 65536 := Nat.mul_le_mul (rowStride_rasterW_le s) (s.outHeight_lt o).le
    _ < 2 ^ 32 := by decide

/-- A success changes RB, STATUS and the four result registers alone (R91). -/
theorem rasterized_frame (s : State) (o : Orientation) :
    s.rasterized o =
      { s with
        rb := (s.rasterized o).rb
        regs := { s.regs with
          status := Status.success, stride := (s.rasterized o).regs.stride,
          outH := (s.rasterized o).regs.outH, bufLen := (s.rasterized o).regs.bufLen,
          path := pathCode o } } := rfl

/-! ## The raster buffer -/

theorem raster_length (s : State) (o : Orientation) :
    (s.raster o).length = rowStride s.regs.rasterW.toNat * s.outHeight o :=
  rasterBytes_length ..

/-- Everything a success does to the bytes RB lists. -/
theorem lookup_rasterized (s : State) (o : Orientation) (a : Nat) :
    (s.rasterized o).rb.lookup a =
      if a < (s.raster o).length then (s.raster o)[a]? else s.rb.lookup a := by
  calc (s.rasterized o).rb.lookup a
    _ = (s.rb.store 0 (s.raster o)).lookup a := rfl
    _ = if a < (s.raster o).length then (s.raster o)[a]? else s.rb.lookup a := by
      simp [Memory.lookup_store]

theorem lookup_rasterized_of_lt {a : Nat}
    (ha : a < rowStride s.regs.rasterW.toNat * s.outHeight o) :
    (s.rasterized o).rb.lookup a = (s.raster o)[a]? := by
  rw [lookup_rasterized, if_pos (by rwa [raster_length])]

theorem lookup_rasterized_of_ge {a : Nat}
    (ha : rowStride s.regs.rasterW.toNat * s.outHeight o ≤ a) :
    (s.rasterized o).rb.lookup a = s.rb.lookup a := by
  rw [lookup_rasterized, if_neg (by rw [raster_length]; omega)]

theorem exists_raster_byte {a : Nat} (ha : a < rowStride s.regs.rasterW.toNat * s.outHeight o) :
    ∃ b, (s.raster o)[a]? = some b :=
  ⟨_, List.getElem?_eq_getElem (by rwa [raster_length])⟩

theorem readByte_rasterized {a : Nat} {b : Byte} (hb : (s.raster o)[a]? = some b) :
    readByte (s.rasterized o) .rb a = b := by
  obtain ⟨hlen, -⟩ := List.getElem?_eq_some_iff.mp hb
  rw [raster_length] at hlen
  exact readByte_of_lookup_some (m := .rb) ((lookup_rasterized_of_lt hlen).trans hb)

theorem readByte_rasterized_of_ge {a : Nat}
    (ha : rowStride s.regs.rasterW.toNat * s.outHeight o ≤ a) :
    readByte (s.rasterized o) .rb a = readByte s .rb a :=
  congrArg (Option.getD · _) (lookup_rasterized_of_ge ha)

/-- Lane i of byte j of output row y is the bit of output column 8j + i (R88). -/
theorem getLsbD_rasterized {y j i : Nat} (hy : y < s.outHeight o)
    (hj : j < rowStride s.regs.rasterW.toNat) (hi : i < 8) :
    (readByte (s.rasterized o) .rb (y * rowStride s.regs.rasterW.toNat + j)).getLsbD (7 - i) =
      rasterBit s o s.regs.imgW.toNat s.regs.rasterW.toNat (8 * j + i) y := by
  rw [readByte_rasterized (rasterBytes_at s o _ _ _ hy hj), rasterByte, packLanes_getLsbD _ hi]

end Sys2Proof.Machine
end

section
/-! PROOF. What RASTERIZE gives on each path, and the geometry of a success (R81 to R94). -/

namespace Sys2Proof.Machine

open Sys2Proof

/-- The registers and bytes a success leaves, in the terms of the output's width and height. -/
theorem rasterized_reads {s : State} {o : Orientation} {ow oh : Nat}
    (how : s.regs.rasterW.toNat = ow) (hoh : s.outHeight o = oh) :
    (s.rasterized o).regs.stride.toNat = rowStride ow ∧
    (s.rasterized o).regs.bufLen.toNat = rowStride ow * oh ∧
    (∀ y j i, y < oh → j < rowStride ow → i < 8 →
      (readByte (s.rasterized o) .rb (y * rowStride ow + j)).getLsbD (7 - i) =
        rasterBit s o s.regs.imgW.toNat ow (8 * j + i) y) ∧
    ∀ a, rowStride ow * oh ≤ a → readByte (s.rasterized o) .rb a = readByte s .rb a := by
  subst how hoh
  exact ⟨rasterized_stride s o, rasterized_bufLen s o, fun _ _ _ => getLsbD_rasterized,
    fun _ => readByte_rasterized_of_ge⟩

/-- Settles O25: the success on the FLIP path. -/
theorem rasterizeFlips : Obligations.RasterizeFlips := by
  rintro s _ _ rfl rfl hrw him hrb
  have hfit : s.Rasterizes .flip := ⟨if_pos hrw.symm, him, by rw [hrw]; exact hrb⟩
  have houtH : (s.rasterized .flip).regs.outH = s.regs.imgH :=
    BitVec.eq_of_toNat_eq (rasterized_outH s .flip)
  refine ⟨s.rasterized .flip, exec_rasterize_of_rasterizes hfit, ?_, rasterized_reads hrw rfl⟩
  rw [← houtH]
  exact rasterized_frame s .flip

/-- Settles O26: the success on the TRANSPOSE path. -/
theorem rasterizeTransposes : Obligations.RasterizeTransposes := by
  rintro s _ _ rfl rfl hne hrw him hrb
  have ho : orientation s.regs.imgW.toNat s.regs.imgH.toNat s.regs.rasterW.toNat =
      some .transpose := by
    rw [hrw, orientation, if_neg hne, if_pos rfl]
  have hfit : s.Rasterizes .transpose := ⟨ho, him, by rw [hrw]; exact hrb⟩
  have houtH : (s.rasterized .transpose).regs.outH = s.regs.imgW :=
    BitVec.eq_of_toNat_eq (rasterized_outH s .transpose)
  refine ⟨s.rasterized .transpose, exec_rasterize_of_rasterizes hfit, ?_, rasterized_reads hrw rfl⟩
  rw [← houtH]
  exact rasterized_frame s .transpose

/-- Settles O27: the padding lanes of a packed byte are clear, and the stored bytes do not depend on
RB. -/
theorem paddingIsZeroAndRowsAreWhole : Obligations.PaddingIsZeroAndRowsAreWhole := by
  intro s t h herr
  obtain ⟨o, hfit, rfl⟩ := exec_rasterize_success h herr
  rw [rasterized_stride, rasterized_outH, rasterized_bufLen]
  refine ⟨fun y j i hy hj hi hpad => ?_, fun old => ?_, fun a => lookup_rasterized_of_ge⟩
  · rw [getLsbD_rasterized hy hj hi, rasterBit, decide_eq_false (Nat.not_lt.mpr hpad),
      Bool.false_and]
  · have hfitOld : ({ s with rb := old } : State).Rasterizes o :=
      ⟨hfit.oriented, hfit.imageFits, hfit.rasterFits⟩
    refine ⟨_, exec_rasterize_of_rasterizes hfitOld, fun a ha => ?_⟩
    obtain ⟨b, hb⟩ := exists_raster_byte ha
    rw [lookup_rasterized_of_lt ha]
    exact ⟨Option.isSome_of_eq_some hb, lookup_rasterized_of_lt ha⟩

/-- Settles O28: the registers of a success, and the output position of an input pixel as the inverse
of the index map. -/
theorem rasterGeometry : Obligations.RasterGeometry := by
  refine ⟨fun s t h herr => ?_, fun o w h => ⟨fun x y => sourceIndex_lt, fun k hk => ?_⟩⟩
  · obtain ⟨o, hfit, rfl⟩ := exec_rasterize_success h herr
    rw [rasterized_stride, rasterized_outH, rasterized_bufLen]
    exact ⟨rfl, rfl, hfit.size, o, hfit.orientedWidth, rfl, rfl⟩
  · obtain ⟨hx, hy⟩ := outputPosition_lt (o := o) hk
    exact ⟨_, _, hx, hy, (sourceIndex_eq_iff hx hy).mpr ⟨rfl, rfl⟩,
      fun _ _ hx' hy' => (sourceIndex_eq_iff hx' hy').mp⟩

end Sys2Proof.Machine
end

section
/-! PROOF. Two runs of RASTERIZE compared: under the two polarities, and on the same image (R80, R86,
R93, R166). -/

namespace Sys2Proof.Machine

open Sys2Proof

/-- The machine with the other polarity (R86, R166). -/
def State.darkGtHalf (s : State) : State := { s with cfg := { s.cfg with polarity := .darkGtHalf } }

theorem rasterBit_darkGtHalf {s : State} (hpol : s.cfg.polarity = .darkLeHalf) (o : Orientation)
    (w ow x y : Nat) :
    rasterBit s.darkGtHalf o w ow x y = (decide (x < ow) && !rasterBit s o w ow x y) := by
  have hpixel (k : Nat) : dark .darkGtHalf (readPixel s k) = !dark .darkLeHalf (readPixel s k) := rfl
  calc rasterBit s.darkGtHalf o w ow x y
    _ = (decide (x < ow) && dark .darkGtHalf (readPixel s (sourceIndex o w x y))) := rfl
    _ = (decide (x < ow) && !rasterBit s o w ow x y) := by
      by_cases hx : x < ow <;> simp [rasterBit, hx, hpol, hpixel]

/-- Settles O29: both runs succeed on the same path, and each pixel bit is the other side of the
threshold. -/
theorem otherPolarityInvertsPixels : Obligations.OtherPolarityInvertsPixels := by
  intro s t u hpol ht herr hu
  obtain ⟨o, hfit, rfl⟩ := exec_rasterize_success ht herr
  have hfitGt : s.darkGtHalf.Rasterizes o := ⟨hfit.oriented, hfit.imageFits, hfit.rasterFits⟩
  have hnext := exec_rasterize_of_rasterizes hfitGt
  obtain rfl : s.darkGtHalf.rasterized o = u := Host.Outcome.next.inj (hnext.symm.trans hu)
  rw [rasterized_stride, rasterized_outH]
  refine ⟨rfl, fun y j i hy hj hi => ?_⟩
  have hbit := getLsbD_rasterized (s := s.darkGtHalf) (o := o) hy hj hi
  rw [getLsbD_rasterized hy hj hi]
  exact hbit.trans (rasterBit_darkGtHalf hpol ..)

/-- Two machines with the same parameters and the same dimension registers. -/
structure State.SameDimensions (s₁ s₂ : State) : Prop where
  cfg : s₁.cfg = s₂.cfg
  imgW : s₁.regs.imgW = s₂.regs.imgW
  imgH : s₁.regs.imgH = s₂.regs.imgH
  rasterW : s₁.regs.rasterW = s₂.regs.rasterW

variable {s₁ s₂ t₁ t₂ : State} {o : Orientation}

theorem State.SameDimensions.outHeight (h : s₁.SameDimensions s₂) (o : Orientation) :
    s₁.outHeight o = s₂.outHeight o := by
  rw [State.outHeight, h.imgW, h.imgH]
  rfl

theorem State.SameDimensions.rasterizes (h : s₁.SameDimensions s₂) (hfit : s₁.Rasterizes o) :
    s₂.Rasterizes o := by
  obtain ⟨hor, him, hrb⟩ := hfit
  rw [h.imgW, h.imgH, h.rasterW] at hor
  rw [h.imgW, h.imgH, h.cfg] at him
  rw [h.rasterW, h.outHeight, h.cfg] at hrb
  exact ⟨hor, him, hrb⟩

theorem rasterizeOriented_status (o : Orientation) (w h : Nat) (s : State) :
    (rasterizeOriented o w h s).regs.status =
      if overCapacity s.cfg w h (orientedWidth o w h) (orientedHeight o w h) then Status.failure 0x02#8
      else Status.success := by
  rcases rasterizeOriented_cases o w h s with ⟨hc, hr⟩ | ⟨hc, hr⟩ <;> rw [hr, hc] <;> rfl

/-- STATUS after RASTERIZE depends on the parameters and the dimension registers alone. -/
theorem State.SameDimensions.status (h : s₁.SameDimensions s₂) (h₁ : exec .rasterize s₁ = .next t₁)
    (h₂ : exec .rasterize s₂ = .next t₂) : t₁.regs.status = t₂.regs.status := by
  cases ho : orientation s₁.regs.imgW.toNat s₁.regs.imgH.toNat s₁.regs.rasterW.toNat with
  | none =>
    cases (execRasterize_of_none ho).symm.trans h₁
    rw [h.imgW, h.imgH, h.rasterW] at ho
    cases (execRasterize_of_none ho).symm.trans h₂
    rfl
  | some o =>
    cases (execRasterize_of_some ho).symm.trans h₁
    rw [h.imgW, h.imgH, h.rasterW] at ho
    cases (execRasterize_of_some ho).symm.trans h₂
    rw [rasterizeOriented_status, rasterizeOriented_status, h.cfg, h.imgW, h.imgH]

/-- The raster buffer depends on the image's own pixels alone: no source index is beyond them (R80,
R93). -/
theorem State.SameDimensions.raster (h : s₁.SameDimensions s₂) (hfit : s₁.Rasterizes o)
    (him : ∀ a, a < 3 * (s₁.regs.imgW.toNat * s₁.regs.imgH.toNat) →
      readByte s₁ .im a = readByte s₂ .im a) :
    s₁.raster o = s₂.raster o := by
  have hpixel : ∀ k, k < s₁.regs.imgW.toNat * s₁.regs.imgH.toNat →
      readPixel s₁ k = readPixel s₂ k := fun k hk => by
    rw [readPixel, readPixel, him _ (by omega), him _ (by omega), him _ (by omega)]
  have hbit : ∀ x y, y < s₁.outHeight o →
      rasterBit s₁ o s₁.regs.imgW.toNat s₁.regs.rasterW.toNat x y =
        rasterBit s₂ o s₁.regs.imgW.toNat s₁.regs.rasterW.toNat x y := fun x y hy => by
    by_cases hx : x < s₁.regs.rasterW.toNat
    · rw [rasterBit, rasterBit, h.cfg, hpixel _ (sourceIndex_lt (hfit.orientedWidth ▸ hx) hy)]
    · simp [rasterBit, hx]
  rw [State.raster, State.raster, ← h.outHeight, ← h.imgW, ← h.rasterW]
  refine List.map_congr_left fun k hk => ?_
  have hy : k / rowStride s₁.regs.rasterW.toNat < s₁.outHeight o :=
    Nat.div_lt_of_lt_mul (List.mem_range.mp hk)
  exact congrArg packLanes (funext fun i => hbit _ _ hy)

/-- Settles O30: the same path is taken at the same size, and the same raster buffer is stored. -/
theorem rasterizeReadsOnlyTheImage : Obligations.RasterizeReadsOnlyTheImage := by
  intro s₁ s₂ t₁ t₂ hcfg hw hh hrw him h₁ h₂
  have hsame : s₁.SameDimensions s₂ := ⟨hcfg, hw, hh, hrw⟩
  refine ⟨hsame.status h₁ h₂, fun herr => ?_⟩
  obtain ⟨o, hfit, rfl⟩ := exec_rasterize_success h₁ herr
  have hnext := exec_rasterize_of_rasterizes (hsame.rasterizes hfit)
  obtain rfl : s₂.rasterized o = t₂ := Host.Outcome.next.inj (hnext.symm.trans h₂)
  refine ⟨BitVec.eq_of_toNat_eq ?_, BitVec.eq_of_toNat_eq ?_, BitVec.eq_of_toNat_eq ?_, rfl,
    fun a ha => ?_⟩
  · rw [rasterized_stride, rasterized_stride, hrw]
  · rw [rasterized_outH, rasterized_outH, hsame.outHeight]
  · rw [rasterized_bufLen, rasterized_bufLen, hrw, hsame.outHeight]
  · rw [rasterized_bufLen] at ha
    obtain ⟨b, hb⟩ := exists_raster_byte ha
    rw [readByte_rasterized hb, readByte_rasterized (hsame.raster hfit him ▸ hb)]

end Sys2Proof.Machine
end

section
/-! PROOF. DECODE group by group, and the machine run over its stream (R67, R69, R117). -/

namespace Sys2Proof.Machine

open Sys2Proof

/-- What a group of the stream decodes to (R67); nothing else has a meaning there. -/
def groupBytes : Instr → List Byte
  | .literal payload => payload
  | .repeatRun n v => List.replicate (repeatCount n) v
  | _ => []

variable {z rest : List Byte} {i : Instr}

/-- A group but RESERVED_80 appends its bytes to the decoded output. -/
theorem exec_decodedGroup (h : decodeGroup z = .ok (i, rest)) (hi : i ≠ .reserved80) (s : State) :
    exec i s = .next (s.appendDecoded (groupBytes i)) := by
  rcases decodeGroup_cases h with ⟨c, tail, -, -, -, rfl, -⟩ | ⟨c, -, -, rfl⟩ | ⟨c, v, -, -, rfl⟩
  · exact exec_literal _ s
  · exact absurd rfl hi
  · exact exec_repeatRun _ v s

theorem decodeGroup_rest_length_lt (h : decodeGroup z = .ok (i, rest)) : rest.length < z.length := by
  rcases decodeGroup_cases h with ⟨c, tail, rfl, -, -, -, rfl⟩ | ⟨c, rfl, -⟩ | ⟨c, v, rfl, -⟩ <;>
    simp only [List.length_cons, List.length_drop] <;> omega

/-! ## The fuel of DECODE -/

theorem decodeStreamFuel_nil (fuel : Nat) : decodeStreamFuel fuel [] = .ok [] := by
  cases fuel <;> rfl

/-- Fuel beyond the stream's length changes nothing. -/
theorem decodeStreamFuel_eq {fuel : Nat} (h : z.length ≤ fuel) :
    ∀ {fuel' : Nat}, z.length ≤ fuel' → decodeStreamFuel fuel z = decodeStreamFuel fuel' z := by
  induction fuel generalizing z with
  | zero =>
    intro fuel' _
    rw [List.length_eq_zero_iff.mp (Nat.le_zero.mp h), decodeStreamFuel_nil, decodeStreamFuel_nil]
  | succ fuel ih =>
    intro fuel' h'
    rcases z with - | ⟨c, tail⟩
    · rw [decodeStreamFuel_nil, decodeStreamFuel_nil]
    obtain - | fuel' := fuel'
    · cases h'
    have hle := Nat.le_of_succ_le_succ h
    have hle' := Nat.le_of_succ_le_succ h'
    have hdrop : (tail.drop (c.toNat + 1)).length ≤ tail.length := by simp
    simp only [decodeStreamFuel, ih (hdrop.trans hle) (hdrop.trans hle')]
    cases tail with
    | nil => rfl
    | cons v tail => simp only [ih (Nat.le_of_succ_le hle) (Nat.le_of_succ_le hle')]

/-- One group of a stream with fuel left. -/
theorem decodeStreamFuel_group (h : decodeGroup z = .ok (i, rest)) (hi : i ≠ .reserved80) (fuel : Nat) :
    decodeStreamFuel (fuel + 1) z = (decodeStreamFuel fuel rest).map (groupBytes i ++ ·) := by
  rcases decodeGroup_cases h with ⟨c, tail, rfl, hc, hlen, rfl, rfl⟩ | ⟨c, -, -, rfl⟩ |
    ⟨c, v, rfl, hc, rfl⟩
  · simp only [decodeStreamFuel, hc, if_true, gt_iff_lt, Nat.not_lt.mpr hlen, if_false]
    cases decodeStreamFuel fuel (tail.drop (c.toNat + 1)) <;> rfl
  · exact absurd rfl hi
  · have hcount : 257 - c.toNat = repeatCount (c.extractLsb' 0 7) := by
      have := toNat_eq_add_countField (c := c) hc.le
      rw [repeatCount]
      omega
    simp only [decodeStreamFuel, Nat.not_le.mpr (Nat.lt_of_succ_lt hc), hc.ne', if_false, hcount]
    cases decodeStreamFuel fuel rest <;> rfl

/-! ## DECODE by what stands at the stream's head -/

theorem decodeStream_nil : decodeStream [] = .ok [] := rfl

/-- DECODE of a stream that begins with a group is the group's bytes and DECODE of the rest (R117). -/
theorem decodeStream_group (h : decodeGroup z = .ok (i, rest)) (hi : i ≠ .reserved80) :
    decodeStream z = (decodeStream rest).map (groupBytes i ++ ·) := by
  have hlt := decodeGroup_rest_length_lt h
  calc decodeStream z
    _ = decodeStreamFuel (z.length + 1) z := decodeStreamFuel_eq (Nat.le_refl _) (Nat.le_succ _)
    _ = (decodeStreamFuel z.length rest).map (groupBytes i ++ ·) := decodeStreamFuel_group h hi _
    _ = (decodeStream rest).map (groupBytes i ++ ·) := by
      rw [decodeStream, decodeStreamFuel_eq hlt.le (Nat.le_refl _)]

/-- Induction along a stream as DECODE reads it: its end, a group that is cut off, the reserved control
byte, or a group and the rest. -/
theorem stream_induction {P : List Byte → Prop} (nil : P [])
    (truncated : ∀ c tail, c.toNat ≠ 128 →
      tail.length < (if c.toNat ≤ 127 then c.toNat + 1 else 1) → P (c :: tail))
    (reserved : ∀ tail, P (128#8 :: tail))
    (group : ∀ z i rest, decodeGroup z = .ok (i, rest) → i ≠ .reserved80 → P rest → P z) (z : List Byte) :
    P z := by
  induction hn : z.length using Nat.strong_induction_on generalizing z with
  | _ n ih =>
    subst hn
    have hgroup : ∀ {i rest}, decodeGroup z = .ok (i, rest) → i ≠ .reserved80 → P z := fun h hi =>
      group z _ _ h hi (ih _ (decodeGroup_rest_length_lt h) _ rfl)
    rcases z with - | ⟨c, tail⟩
    · exact nil
    by_cases hres : c.toNat = 128
    · obtain rfl : c = 128#8 := BitVec.eq_of_toNat_eq hres
      exact reserved tail
    by_cases hlen : tail.length < if c.toNat ≤ 127 then c.toNat + 1 else 1
    · exact truncated c tail hres hlen
    by_cases hlit : c.toNat ≤ 127
    · rw [if_pos hlit, Nat.not_lt] at hlen
      exact hgroup (decodeGroup_literal hlit hlen) nofun
    · rw [if_neg hlit] at hlen
      rcases tail with - | ⟨v, tail⟩
      · exact absurd Nat.one_pos hlen
      · exact hgroup (decodeGroup_repeatRun (by omega) v tail) nofun

theorem decodeStream_ne_endOfStream (z : List Byte) : decodeStream z ≠ .error .endOfStream := by
  induction z using stream_induction with
  | nil => nofun
  | truncated c tail hc hlen => rw [decodeStream_truncated hc hlen]; nofun
  | reserved tail => nofun
  | group z i rest h hi ih =>
    rw [decodeStream_group h hi]
    cases hrest : decodeStream rest with
    | ok out => nofun
    | error e => exact fun he => ih (hrest.trans (congrArg _ (Except.error.inj he)))

/-! ## The machine run over the stream -/

/-- Settles O12: the stream comes before the host's events. -/
theorem groupAtTheStreamRuns : Obligations.GroupAtTheStreamRuns := fun _ _ _ => step_group

/-- Where the machine run over its whole stream ends when DECODE of the stream answers this. -/
def streamOutcome (s : State) : Except DecodeError (List Byte) → Host.Outcome State Fault Refusal
  | .ok out => .next { s with decIn := [], decOut := s.decOut ++ out }
  | .error .reserved => .refused .reservedControlByte
  | .error _ => .refused .truncatedGroup

/-- After a group, the outcome is that of the rest with the group's bytes before it. -/
theorem streamOutcome_appendDecoded (s : State) (rest bs : List Byte)
    (x : Except DecodeError (List Byte)) :
    streamOutcome (State.appendDecoded { s with decIn := rest } bs) x =
      streamOutcome s (x.map (bs ++ ·)) := by
  cases x with
  | ok out => simp [streamOutcome, State.appendDecoded, Except.map]
  | error e => cases e <;> rfl

theorem run_one_of_refused {M : Host.Core} {s : M.State} {r : M.Refusal} (h : M.step s = .refused r) :
    M.run 1 s = .refused r := by
  rw [Host.Core.run, h]

theorem run_succ_of_next {M : Host.Core} {s t : M.State} (h : M.step s = .next t) (k : Nat) :
    M.run (k + 1) s = M.run k t := by
  rw [Host.Core.run, h]

/-- Running the machine over its stream reaches what DECODE answers (R117, log 5). -/
theorem exists_run_eq_streamOutcome (s : State) :
    ∃ k, Sys2Proof.core.run k s = streamOutcome s (decodeStream s.decIn) := by
  induction hz : s.decIn using stream_induction generalizing s with
  | nil =>
    have hs : s = { s with decIn := [], decOut := s.decOut ++ [] } := by rw [List.append_nil, ← hz]
    exact ⟨0, congrArg Host.Outcome.next hs⟩
  | truncated c tail hc hlen =>
    rw [decodeStream_truncated hc hlen]
    exact ⟨1, run_one_of_refused (step_truncated (hz ▸ decodeGroup_truncated hc hlen))⟩
  | reserved tail =>
    have hgroup : decodeGroup s.decIn = .ok (.reserved80, tail) := hz ▸ decodeGroup_reserved80 tail
    exact ⟨1, run_one_of_refused ((step_group hgroup).trans (exec_reserved80 _))⟩
  | group z i rest h hi ih =>
    subst hz
    obtain ⟨k, hk⟩ := ih (State.appendDecoded { s with decIn := rest } (groupBytes i)) rfl
    have hstep := (step_group h).trans (exec_decodedGroup h hi _)
    refine ⟨k + 1, (run_succ_of_next (M := Sys2Proof.core) hstep k).trans ?_⟩
    rw [hk, decodeStream_group h hi, streamOutcome_appendDecoded]

/-- Settles O47, by induction along the stream: a step performs the group DECODE reads. -/
theorem runningTheStreamIsDecode : Obligations.RunningTheStreamIsDecode := by
  intro s
  obtain ⟨k, hk⟩ := exists_run_eq_streamOutcome s
  exact ⟨fun out h => ⟨k, by rw [hk, h]; rfl⟩, fun h => ⟨k, by rw [hk, h]; rfl⟩,
    fun h => ⟨k, by rw [hk, h]; rfl⟩, decodeStream_ne_endOfStream _⟩

end Sys2Proof.Machine
end

section
/-! PROOF. The state machine of R110 gives the closed form of R111, and the closed form of some inputs. -/

namespace Sys2Proof.Machine

open Sys2Proof

variable {c v : Byte} {rest : List Byte} {r : RunState}

/-! ## The maximal groups of equal bytes -/

/-- The first group is of the first byte. -/
theorem equalGroups_head (c : Byte) (rest : List Byte) :
    ∃ k gs, equalGroups (c :: rest) = (c, k + 1) :: gs := by
  rw [equalGroups]
  split
  · exact ⟨0, [], rfl⟩
  · next v k gs _ =>
    split
    · next h => exact ⟨k, gs, by rw [h]⟩
    · exact ⟨0, _, rfl⟩

/-- A byte unlike the next one is a group of its own. -/
theorem equalGroups_of_ne (h : nextEquals c rest = false) :
    equalGroups (c :: rest) = (c, 1) :: equalGroups rest := by
  cases rest with
  | nil => rfl
  | cons d rest =>
    obtain ⟨k, gs, hg⟩ := equalGroups_head d rest
    have hne : c ≠ d := Ne.symm (of_decide_eq_false h)
    rw [equalGroups, hg]
    exact if_neg hne

/-- A byte like the next one joins its group. -/
theorem equalGroups_of_eq (h : nextEquals c rest = true) :
    ∃ k gs, equalGroups rest = (c, k + 1) :: gs ∧ equalGroups (c :: rest) = (c, k + 2) :: gs := by
  cases rest with
  | nil => cases h
  | cons d rest =>
    obtain rfl : d = c := of_decide_eq_true h
    obtain ⟨k, gs, hg⟩ := equalGroups_head d rest
    refine ⟨k, gs, hg, ?_⟩
    rw [equalGroups, hg]
    exact if_pos rfl

/-! ## Chunks -/

theorem literalChunks_nil : literalChunks [] = [] := rfl

/-- Up to 127 singletons are one literal run (R111). -/
theorem literalChunks_of_length_le {p : List Byte} (hpos : 1 ≤ p.length) (hle : p.length ≤ 127) :
    literalChunks p = BitVec.ofNat 8 (p.length - 1) :: p := by
  have hone : (p.length + 126) / 127 = 1 := by omega
  simp [literalChunks, hone, List.take_of_length_le hle, Nat.min_eq_right hle]

theorem literalChunks_singleton (v : Byte) : literalChunks [v] = [0x00#8, v] :=
  literalChunks_of_length_le (p := [v]) (Nat.le_refl 1) (Nat.le_add_left 1 126)

/-- The first 127 singletons are a chunk of their own. -/
theorem literalChunks_append {p : List Byte} (hp : p.length = 127) (bs : List Byte) :
    literalChunks (p ++ bs) = literalChunks p ++ literalChunks bs := by
  have hcount : ((p ++ bs).length + 126) / 127 = (bs.length + 126) / 127 + 1 := by
    rw [List.length_append]
    omega
  have hfirst : (p ++ bs).take 127 = p := hp ▸ List.take_left
  have hrest : ∀ q, (p ++ bs).drop (127 * (q + 1)) = bs.drop (127 * q) := fun q => by
    rw [Nat.mul_succ, Nat.add_comm, ← List.drop_drop, ← hp, List.drop_left]
  rw [literalChunks_of_length_le (by omega) hp.le, literalChunks, hcount, List.range_succ_eq_map,
    List.flatMap_cons, List.flatMap_map, literalChunks]
  simp only [Nat.mul_zero, List.drop_zero, hfirst, hrest]

/-- A run of 1 to 127 equal bytes is one pair (R111). -/
theorem repeatChunks_of_le {k : Nat} (v : Byte) (hpos : 1 ≤ k) (hle : k ≤ 127) :
    repeatChunks v k = [repeatRunControl k, v] := by
  obtain rfl | hlt := hle.eq_or_lt
  · rfl
  · rw [repeatChunks, Nat.div_eq_of_lt hlt, Nat.mod_eq_of_lt hlt, if_neg (by omega)]
    rfl

/-- Each full 127 of a run is a pair of its own. -/
theorem repeatChunks_add (v : Byte) (k : Nat) :
    repeatChunks v (127 + k) = repeatChunks v 127 ++ repeatChunks v k := by
  have hdiv : (127 + k) / 127 = k / 127 + 1 := by omega
  have hmod : (127 + k) % 127 = k % 127 := by omega
  rw [repeatChunks, hdiv, hmod, List.replicate_succ, List.flatten_cons, List.append_assoc]
  rfl

/-- A literal buffer that is full of singletons is emitted before the rest. -/
theorem closedEmit_append {p : List Byte} (hp : p.length = 127) (acc : List Byte)
    (gs : List (Byte × Nat)) :
    closedEmit (p ++ acc) gs = literalChunks p ++ closedEmit acc gs := by
  induction gs generalizing acc with
  | nil => exact literalChunks_append hp acc
  | cons g gs ih =>
    obtain ⟨v, k⟩ := g
    simp only [closedEmit, literalChunks_append hp, List.append_assoc, ih]
    split <;> rfl

theorem flushLit_out_eq_literalChunks (h : r.lit.length ≤ 127) :
    (flushLit r).out = r.out ++ literalChunks r.lit := by
  rw [flushLit_out]
  split
  · next hnil => rw [hnil, literalChunks_nil]
  · next hne => rw [literalChunks_of_length_le (List.length_pos_iff.mpr hne) h]

/-! ## The scan against the closed form -/

/-- The whole output of a run state when the bytes still to be read have these groups: the buffered
literal bytes are singletons already gathered, the counted bytes belong to the first group. -/
def RunState.closedOut (r : RunState) (gs : List (Byte × Nat)) : List Byte :=
  match r.mode, gs with
  | .lit, gs => r.out ++ closedEmit r.lit gs
  | .rep, [] => r.out
  | .rep, (v, k) :: gs => r.out ++ repeatChunks v (r.count + k) ++ closedEmit [] gs

theorem RunState.closedOut_lit (hm : r.mode = .lit) (gs : List (Byte × Nat)) :
    r.closedOut gs = r.out ++ closedEmit r.lit gs := by
  simp only [closedOut, hm]

theorem RunState.closedOut_rep (hm : r.mode = .rep) (v : Byte) (k : Nat) (gs : List (Byte × Nat)) :
    r.closedOut ((v, k) :: gs) = r.out ++ repeatChunks v (r.count + k) ++ closedEmit [] gs := by
  simp only [closedOut, hm]

/-- In repeat mode the byte to be read next is the value counted (R102, R103). -/
def RunState.Awaits (r : RunState) (rest : List Byte) : Prop :=
  r.mode = .rep → ∃ tail, rest = r.value :: tail

theorem consumeLit_closedOut (hm : r.mode = .lit) (c : Byte)
    (gs : List (Byte × Nat)) : (consumeLit c r).closedOut gs = r.closedOut ((c, 1) :: gs) := by
  rw [RunState.closedOut_lit hm, closedEmit, if_pos rfl, consumeLit_eq]
  split
  · next hfull =>
    have hlen : (r.lit ++ [c]).length = 127 := by simpa using hfull
    rw [RunState.closedOut_lit (by simpa using hm), flushLit_lit,
      flushLit_out_eq_literalChunks hlen.le, List.append_assoc, ← closedEmit_append hlen,
      List.append_nil]
  · exact RunState.closedOut_lit (r := { r with lit := r.lit ++ [c] }) hm gs

theorem consumeRep_closedOut (hm : r.mode = .rep) (hlit : r.lit = []) (hcount : r.count ≤ 126)
    (rest : List Byte) :
    (consumeRep (nextEquals r.value rest) r).closedOut (equalGroups rest) =
      r.closedOut (equalGroups (r.value :: rest)) := by
  have hpair := repeatChunks_of_le r.value (Nat.le_add_left 1 r.count) (Nat.succ_le_succ hcount)
  rw [consumeRep_eq]
  cases heq : nextEquals r.value rest with
  | false =>
    rw [equalGroups_of_ne heq, RunState.closedOut_rep hm, hpair, if_pos rfl,
      RunState.closedOut_lit rfl]
    simp [hlit]
  | true =>
    obtain ⟨k, gs, hrest, hcons⟩ := equalGroups_of_eq heq
    rw [hrest, hcons, RunState.closedOut_rep hm, if_neg (by decide)]
    split
    · next hfull =>
      have hsplit : r.count + (k + 2) = 127 + (k + 1) := by omega
      rw [RunState.closedOut_rep (by simpa using hm), hsplit, repeatChunks_add, ← hfull, hpair]
      simp
    · have hsum : r.count + 1 + (k + 1) = r.count + (k + 2) := by omega
      rw [RunState.closedOut_rep (r := { r with count := r.count + 1 }) hm, hsum]

/-- A step of the scan moves its byte from the input to the run state and keeps the whole output (R103
to R106). -/
theorem scanStep_closedOut (hr : r.Good) (hw : r.Awaits (c :: rest)) :
    (scanStep c (nextEquals c rest) r).closedOut (equalGroups rest) =
      r.closedOut (equalGroups (c :: rest)) := by
  obtain ⟨-, hlit, hlen, hcount⟩ := hr
  rcases scanStep_cases c r (nextEquals c rest) with ⟨hm, heq, he⟩ | ⟨hm, heq, he⟩ | ⟨hm, he⟩ <;> rw [he]
  · rw [consumeLit_closedOut hm, equalGroups_of_ne heq]
  · have hrep := consumeRep_closedOut (r := { flushLit r with mode := .rep, value := c, count := 0 }) rfl
      (flushLit_lit r) (Nat.zero_le _) rest
    obtain ⟨k, gs, -, hcons⟩ := equalGroups_of_eq heq
    rw [← heq, hrep, hcons, RunState.closedOut_rep rfl, RunState.closedOut_lit hm, closedEmit,
      if_neg (by omega)]
    simp [flushLit_out_eq_literalChunks (Nat.le_succ_of_le hlen)]
  · obtain ⟨tail, ht⟩ := hw hm
    cases ht
    exact consumeRep_closedOut hm (hlit hm) hcount rest

theorem consumeRep_awaits (h : r.value = c) (rest : List Byte) :
    (consumeRep (nextEquals c rest) r).Awaits rest := by
  rw [consumeRep_eq]
  cases heq : nextEquals c rest with
  | false => nofun
  | true =>
    cases rest with
    | nil => cases heq
    | cons d rest =>
      obtain rfl : d = c := of_decide_eq_true heq
      rw [if_neg (by decide)]
      split <;> exact fun _ => ⟨rest, by simp [h]⟩

/-- Repeat mode goes on exactly while the next byte equals the current one (R103, R105). -/
theorem scanStep_awaits (hw : r.Awaits (c :: rest)) :
    (scanStep c (nextEquals c rest) r).Awaits rest := by
  rcases scanStep_cases c r (nextEquals c rest) with ⟨hm, -, he⟩ | ⟨-, heq, he⟩ | ⟨hm, he⟩ <;> rw [he]
  · intro hrep
    rw [consumeLit_eq] at hrep
    split at hrep <;> simp [hm] at hrep
  · rw [← heq]
    exact consumeRep_awaits (r := { flushLit r with mode := .rep, value := c, count := 0 }) rfl rest
  · obtain ⟨tail, ht⟩ := hw hm
    cases ht
    exact consumeRep_awaits rfl rest

theorem flushLit_scan_out (b : List Byte) (hr : r.Good) (hw : r.Awaits b) :
    (flushLit (scan b r)).out = r.closedOut (equalGroups b) := by
  induction b generalizing r with
  | nil =>
    obtain ⟨-, -, hlen, -⟩ := hr
    have hm : r.mode = .lit := by
      cases hm : r.mode with
      | lit => rfl
      | rep => obtain ⟨tail, ht⟩ := hw hm; cases ht
    rw [RunState.closedOut_lit hm]
    exact flushLit_out_eq_literalChunks (Nat.le_succ_of_le hlen)
  | cons c rest ih =>
    rw [scan_cons, ih (scanStep_good c _ hr) (scanStep_awaits hw), scanStep_closedOut hr hw]

theorem compressBytes_eq_compressClosed (b : List Byte) : compressBytes b = compressClosed b :=
  flushLit_scan_out b runStart_good nofun

/-- Settles O35: every step of the scan keeps what the closed form says the whole output is. -/
theorem stateMachineEqualsClosedForm : Obligations.StateMachineEqualsClosedForm :=
  compressBytes_eq_compressClosed

/-! ## The run state and its flushes -/

/-- Settles O38: each way a byte is consumed keeps the bounds. -/
theorem runStateBounds : Obligations.RunStateBounds :=
  ⟨⟨rfl, rfl, rfl, rfl⟩, runStart_good, fun c eq _ => scanStep_good c eq⟩

theorem flushLit_of_nil (h : r.lit = []) : flushLit r = r := by
  simp [flushLit, h]

theorem flushLit_of_pos (h : 1 ≤ r.lit.length) :
    flushLit r = { r with out := r.out ++ BitVec.ofNat 8 (r.lit.length - 1) :: r.lit, lit := [] } :=
  if_pos h

/-- Settles O39: up to 127 bytes the control bytes do not wrap. -/
theorem flushesEmit : Obligations.FlushesEmit := by
  intro r
  refine ⟨flushLit_of_nil, fun hpos hle => ⟨_, ?_, flushLit_of_pos hpos⟩, fun _ hle =>
    ⟨repeatRunControl r.count, fun h1 => ?_, fun h2 => repeatRunControl_toNat h2 hle, rfl⟩⟩
  · exact literalControl_toNat ⟨hpos, Nat.le_succ_of_le hle⟩
  · rw [h1]
    rfl

/-! ## The output for some inputs -/

/-- A run of equal bytes before another byte or the end is one group. -/
theorem equalGroups_replicate_append (h : nextEquals v rest = false) (k : Nat) :
    equalGroups (List.replicate (k + 1) v ++ rest) = (v, k + 1) :: equalGroups rest := by
  induction k with
  | zero => exact equalGroups_of_ne h
  | succ k ih =>
    have heq : nextEquals v (List.replicate (k + 1) v ++ rest) = true := decide_eq_true rfl
    obtain ⟨k', gs, htail, hcons⟩ := equalGroups_of_eq heq
    cases ih.symm.trans htail
    exact hcons

/-- Settles O40: a uniform input is one group. -/
theorem uniformInput : Obligations.UniformInput := by
  intro v k
  change compressBytes (List.replicate k v) = repeatChunks v k
  rw [compressBytes_eq_compressClosed]
  cases k with
  | zero => rfl
  | succ k =>
    have hgroups := equalGroups_replicate_append (nextEquals_nil v) k
    rw [List.append_nil] at hgroups
    rw [compressClosed, hgroups, closedEmit]
    split
    · next h1 =>
      rw [h1, repeatChunks_of_le v (Nat.le_refl 1) (by decide)]
      exact literalChunks_singleton v
    · simp [closedEmit, equalGroups, literalChunks_nil]

/-- With no two adjacent bytes equal every byte is a group of its own. -/
theorem equalGroups_of_isChain {b : List Byte} (h : b.IsChain (fun x y => x ≠ y)) :
    equalGroups b = b.map (·, 1) := by
  induction b with
  | nil => rfl
  | cons c rest ih =>
    have hne : nextEquals c rest = false := by
      cases rest with
      | nil => rfl
      | cons d rest => exact decide_eq_false (List.isChain_cons_cons.mp h).1.symm
    rw [equalGroups_of_ne hne, ih h.tail, List.map_cons]

theorem closedEmit_singletons (acc b : List Byte) :
    closedEmit acc (b.map (·, 1)) = literalChunks (acc ++ b) := by
  induction b generalizing acc with
  | nil => rw [List.append_nil]; rfl
  | cons c rest ih => rw [List.map_cons, closedEmit, if_pos rfl, ih, List.append_assoc]; rfl

/-- Settles O41: the bytes are singletons of one chunk. -/
theorem distinctNeighboursInput : Obligations.DistinctNeighboursInput := by
  intro b hpos hle hchain
  rw [compressBytes_eq_compressClosed, compressClosed, equalGroups_of_isChain hchain,
    closedEmit_singletons]
  exact literalChunks_of_length_le hpos hle

/-- Settles O42: the input is a group of 128 and a singleton. -/
theorem freshRepeatRunAfterForcedFlush : Obligations.FreshRepeatRunAfterForcedFlush := by
  intro v x hne
  have hnext : nextEquals v [x] = false := decide_eq_false hne
  have hgroups : equalGroups (List.replicate 128 v ++ [x]) = [(v, 128), (x, 1)] :=
    equalGroups_replicate_append hnext 127
  rw [compressBytes_eq_compressClosed, compressClosed, hgroups]
  simp only [closedEmit, Nat.reduceEqDiff, if_true, if_false, List.nil_append]
  rw [literalChunks_nil, literalChunks_singleton, repeatChunks_add v 1]
  rfl

end Sys2Proof.Machine
end

section
/-! PROOF. DECODE undoes the compressor, and the lower bound of its output (R115, R118). -/

namespace Sys2Proof.Machine

open Sys2Proof

variable {z out : List Byte}

/-! ## Decoding what the compressor emits -/

theorem decodeGroup_emitted {g : Instr} (h : Emitted g) (z : List Byte) :
    decodeGroup ((encode g).bytes ++ z) = .ok (g, z) := by
  rcases h with ⟨p, rfl, hpos, hle⟩ | ⟨n, v, rfl, hn⟩
  · exact decodeGroup_encode_literal ⟨hpos, Nat.le_succ_of_le hle⟩ z
  · exact decodeGroup_encode_repeatRun (by rintro rfl; cases hn) v z

theorem decodeStream_emitted {g : Instr} (h : Emitted g) (hz : decodeStream z = .ok out) :
    decodeStream ((encode g).bytes ++ z) = .ok (groupBytes g ++ out) := by
  have hres : g ≠ .reserved80 := by
    rintro rfl
    rcases h with ⟨p, ⟨⟩, -⟩ | ⟨n, v, ⟨⟩, -⟩
  rw [decodeStream_group (decodeGroup_emitted h z) hres, hz]
  rfl

theorem decodeStream_literal {p : List Byte} (hpos : 1 ≤ p.length) (hle : p.length ≤ 127)
    (hz : decodeStream z = .ok out) :
    decodeStream (BitVec.ofNat 8 (p.length - 1) :: p ++ z) = .ok (p ++ out) :=
  decodeStream_emitted (g := .literal p) (.inl ⟨p, rfl, hpos, hle⟩) hz

/-- The pair of a run of `k` bytes decodes to the run; for `k = 1` it is a literal group (R108). -/
theorem decodeStream_repeatPair {k : Nat} (v : Byte) (hpos : 1 ≤ k) (hle : k ≤ 127)
    (hz : decodeStream z = .ok out) :
    decodeStream (repeatRunControl k :: v :: z) = .ok (List.replicate k v ++ out) := by
  by_cases h1 : k = 1
  · subst h1
    exact decodeStream_literal (p := [v]) (Nat.le_refl 1) (Nat.le_add_left 1 126) hz
  · have h2 : 2 ≤ k := by omega
    have hn : (BitVec.ofNat 7 (129 - k)).toNat = 129 - k :=
      (BitVec.toNat_ofNat ..).trans (Nat.mod_eq_of_lt (by omega))
    have hcount : repeatCount (BitVec.ofNat 7 (129 - k)) = k := by
      rw [repeatCount, hn]
      omega
    have hg := decodeStream_emitted (g := .repeatRun (BitVec.ofNat 7 (129 - k)) v)
      (.inr ⟨_, v, rfl, by omega⟩) hz
    rw [groupBytes, hcount] at hg
    rw [repeatRunControl_eq h2 hle]
    exact hg

/-! ## Decoding the closed form -/

/-- The chunks of singletons decode to the singletons, the first 127 of them before the rest. -/
theorem decodeStream_literalChunks (hz : decodeStream z = .ok out) (bs : List Byte) :
    decodeStream (literalChunks bs ++ z) = .ok (bs ++ out) := by
  induction hn : bs.length using Nat.strong_induction_on generalizing bs with
  | _ n ih =>
    subst hn
    by_cases hnil : bs = []
    · rw [hnil]
      exact hz
    have hpos := List.length_pos_iff.mpr hnil
    by_cases hle : bs.length ≤ 127
    · rw [literalChunks_of_length_le hpos hle]
      exact decodeStream_literal hpos hle hz
    have hp : (bs.take 127).length = 127 := List.length_take_of_le (by omega)
    have hd : (bs.drop 127).length < bs.length := by
      rw [List.length_drop]
      omega
    rw [← List.take_append_drop 127 bs, literalChunks_append hp,
      literalChunks_of_length_le (by omega) hp.le, List.append_assoc, List.append_assoc]
    exact decodeStream_literal (by omega) hp.le (ih _ hd _ rfl)

/-- The pairs of a run decode to the run, each full 127 before the rest. -/
theorem decodeStream_repeatChunks (hz : decodeStream z = .ok out) (v : Byte) (k : Nat) :
    decodeStream (repeatChunks v k ++ z) = .ok (List.replicate k v ++ out) := by
  induction k using Nat.strong_induction_on with
  | _ k ih =>
    obtain rfl | hpos := k.eq_zero_or_pos
    · exact hz
    by_cases hle : k ≤ 127
    · rw [repeatChunks_of_le v hpos hle]
      exact decodeStream_repeatPair v hpos hle hz
    obtain ⟨m, rfl⟩ := Nat.exists_eq_add_of_le (Nat.le_of_not_le hle)
    rw [repeatChunks_add, repeatChunks_of_le v (by omega) (Nat.le_refl 127), List.append_assoc,
      List.replicate_add, List.append_assoc]
    exact decodeStream_repeatPair v (by omega) (Nat.le_refl 127) (ih m (by omega))

/-- The bytes a sequence of maximal groups stands for. -/
def ungroup (gs : List (Byte × Nat)) : List Byte := gs.flatMap fun g => List.replicate g.2 g.1

theorem ungroup_cons (v : Byte) (k : Nat) (gs : List (Byte × Nat)) :
    ungroup ((v, k) :: gs) = List.replicate k v ++ ungroup gs := rfl

theorem ungroup_equalGroups (b : List Byte) : ungroup (equalGroups b) = b := by
  induction b with
  | nil => rfl
  | cons c rest ih =>
    cases heq : nextEquals c rest with
    | false =>
      rw [equalGroups_of_ne heq, ungroup_cons, ih]
      rfl
    | true =>
      obtain ⟨k, gs, hrest, hcons⟩ := equalGroups_of_eq heq
      rw [hrest, ungroup_cons] at ih
      rw [hcons, ungroup_cons, List.replicate_succ, List.cons_append, ih]

theorem decodeStream_closedEmit (acc : List Byte) (gs : List (Byte × Nat)) :
    decodeStream (closedEmit acc gs) = .ok (acc ++ ungroup gs) := by
  induction gs generalizing acc with
  | nil =>
    have h := decodeStream_literalChunks decodeStream_nil acc
    rwa [List.append_nil] at h
  | cons g gs ih =>
    obtain ⟨v, k⟩ := g
    rw [closedEmit, ungroup_cons]
    split
    · next h1 =>
      rw [ih, h1, List.append_assoc]
      rfl
    · rw [List.append_assoc]
      exact decodeStream_literalChunks (decodeStream_repeatChunks (ih []) v k) acc

theorem decodeStream_compressBytes (b : List Byte) : decodeStream (compressBytes b) = .ok b := by
  rw [compressBytes_eq_compressClosed, compressClosed, decodeStream_closedEmit, List.nil_append,
    ungroup_equalGroups]

/-- Settles O34: each chunk of the closed form is a group that decodes to the bytes it was cut from. -/
theorem decodeUndoesCompress : Obligations.DecodeUndoesCompress := decodeStream_compressBytes

/-! ## The length of the output -/

theorem decodeStream_emittedGroups {gs : List Instr} (h : ∀ g ∈ gs, Emitted g) :
    decodeStream (gs.flatMap fun g => (encode g).bytes) = .ok (gs.flatMap groupBytes) := by
  induction gs with
  | nil => rfl
  | cons g gs ih =>
    obtain ⟨hg, hgs⟩ := List.forall_mem_cons.mp h
    exact decodeStream_emitted hg (ih hgs)

/-- A group the compressor may emit stands for at most 127 bytes and takes at least 2 (R70). -/
theorem emitted_lengths {g : Instr} (h : Emitted g) :
    (groupBytes g).length ≤ 127 ∧ 2 ≤ (encode g).bytes.length := by
  rcases h with ⟨p, rfl, hpos, hle⟩ | ⟨n, v, rfl, hn⟩
  · exact ⟨hle, Nat.succ_le_succ hpos⟩
  · refine ⟨?_, Nat.le_refl 2⟩
    rw [groupBytes, List.length_replicate, repeatCount]
    omega

theorem emittedGroups_lengths {gs : List Instr} (h : ∀ g ∈ gs, Emitted g) :
    (gs.flatMap groupBytes).length ≤ 127 * gs.length ∧
      2 * gs.length ≤ (gs.flatMap fun g => (encode g).bytes).length := by
  induction gs with
  | nil => exact ⟨Nat.le_refl 0, Nat.le_refl 0⟩
  | cons g gs ih =>
    obtain ⟨hg, hgs⟩ := List.forall_mem_cons.mp h
    obtain ⟨hbytes, hcode⟩ := emitted_lengths hg
    obtain ⟨ihbytes, ihcode⟩ := ih hgs
    simp only [List.flatMap_cons, List.length_append, List.length_cons]
    omega

/-- The lower bound of R115: at least one group of 2 bytes for every 127 input bytes. -/
theorem le_compressBytes_length (b : List Byte) :
    2 * ((b.length + 126) / 127) ≤ (compressBytes b).length := by
  obtain ⟨gs, hgs, hout⟩ := compressBytes_emits b
  have hdec := decodeStream_compressBytes b
  rw [hout, decodeStream_emittedGroups hgs] at hdec
  obtain ⟨hbytes, hcode⟩ := emittedGroups_lengths hgs
  rw [Except.ok.inj hdec] at hbytes
  rw [hout]
  omega

/-- Settles O36: at least 2 bytes for each group, and the budget of 4/3 byte for each input byte. -/
theorem compressedLengthBounds : Obligations.CompressedLengthBounds := fun b =>
  ⟨le_compressBytes_length b, compressBytes_length_le b⟩

end Sys2Proof.Machine
end

section
/-! PROOF. A success of COMPRESS: when it is met, everything it leaves behind, and what it depends on
(R112, R114, R118). -/

namespace Sys2Proof.Machine

open Sys2Proof

/-- The output of COMPRESS for the row in RB. -/
def State.compressedRow (s : State) : List Byte := compressBytes (inputRow s)

/-- The state a success leaves. -/
def State.compressed (s : State) : State := writeCompressed s.compressedRow s

variable {s t : State}

/-- A COMPRESS that answers a next state in range is a success. -/
theorem exec_compress_in_range (hlen : s.regs.rowLen.toNat ≤ s.cfg.rowMax)
    (hend : s.regs.srcOff.toNat + s.regs.rowLen.toNat ≤ s.cfg.rbCap) (h : exec .compress s = .next t) :
    s.compressedRow.length ≤ s.cfg.cbCap ∧ t = s.compressed := by
  have hr := outOfRange_eq_false.mpr ⟨hlen, hend⟩
  rcases execCompress_cases s with ⟨hr', -⟩ | ⟨-, -, he⟩ | ⟨-, hfits, he⟩
  · cases hr.symm.trans hr'
  · cases he.symm.trans h
  · exact ⟨hfits, Host.Outcome.next.inj (h.symm.trans he)⟩

/-- A COMPRESS that ends without an error is a success. -/
theorem exec_compress_success (h : exec .compress s = .next t) (herr : t.regs.status.err = false) :
    t = s.compressed := by
  rcases execCompress_cases s with ⟨-, he⟩ | ⟨-, -, he⟩ | ⟨-, -, he⟩
  · cases he.symm.trans h
    cases herr
  · cases he.symm.trans h
  · exact Host.Outcome.next.inj (h.symm.trans he)

/-- CMP_LEN does not wrap: a row has less than 65536 bytes. -/
theorem compressed_cmpLen (s : State) : s.compressed.regs.cmpLen.toNat = s.compressedRow.length := by
  refine (BitVec.toNat_ofNat ..).trans (Nat.mod_eq_of_lt ?_)
  have hlen := compressBytes_length_le (inputRow s)
  have hrow := s.regs.rowLen.isLt
  rw [inputRow_length] at hlen
  rw [State.compressedRow]
  omega

/-- A success changes CB, STATUS and CMP_LEN alone (R112). -/
theorem compressed_frame (s : State) :
    s.compressed =
      { s with
        cb := s.compressed.cb
        regs := { s.regs with status := Status.success, cmpLen := s.compressed.regs.cmpLen } } := rfl

theorem readByte_compressed (s : State) (k : Nat) :
    readByte s.compressed .cb k =
      if k < s.compressedRow.length then s.compressedRow.getD k 0 else readByte s .cb k := by
  simp [State.compressed, writeCompressed, readByte_storeBytes]

theorem readByte_compressed_of_lt {k : Nat} (h : k < s.compressedRow.length) :
    s.compressedRow[k]? = some (readByte s.compressed .cb k) := by
  simp [readByte_compressed, h]

theorem readBytes_compressed (s : State) :
    readBytes s.compressed .cb 0 s.compressedRow.length = s.compressedRow := by
  refine List.ext_getElem? fun k => ?_
  rw [readBytes_getElem?, Nat.zero_add]
  split
  · next h => exact (readByte_compressed_of_lt h).symm
  · next h => exact (List.getElem?_eq_none (Nat.le_of_not_lt h)).symm

/-- Settles O44: CB holds the compressed row, and DECODE undoes the compressor. -/
theorem compressedRowDecodes : Obligations.CompressedRowDecodes := by
  intro s t h herr
  rw [exec_compress_success h herr, compressed_cmpLen, readBytes_compressed]
  exact decodeStream_compressBytes (inputRow s)

/-- Settles O33: R6's bound on CB_CAP excludes the fault, so the command is a success. -/
theorem compressWritesTheRow : Obligations.CompressWritesTheRow := by
  intro s hv hlen hend
  obtain ⟨t, ht⟩ := execCompress_next hv
  obtain ⟨hfits, rfl⟩ := exec_compress_in_range hlen hend ht
  refine ⟨s.compressed, inputRow s, ht, inputRow_length s, fun p hp => ?_, compressed_frame s,
    compressed_cmpLen s, (compressed_cmpLen s).trans_le hfits, fun k hk => ?_, fun a ha => ?_⟩
  · rw [inputRow, readBytes_getElem?, if_pos hp]
  · exact readByte_compressed_of_lt (compressed_cmpLen s ▸ hk)
  · rw [readByte_compressed, if_neg (Nat.not_lt.mpr (compressed_cmpLen s ▸ ha))]

/-- The output depends on the bytes of the row alone, wherever it stands in RB (R114). -/
theorem compressedRow_congr {s₁ s₂ : State} (hlen : s₁.regs.rowLen = s₂.regs.rowLen)
    (hrow : ∀ p, p < s₁.regs.rowLen.toNat →
      readByte s₁ .rb (s₁.regs.srcOff.toNat + p) = readByte s₂ .rb (s₂.regs.srcOff.toNat + p)) :
    s₁.compressedRow = s₂.compressedRow := by
  refine congrArg compressBytes (List.ext_getElem? fun p => ?_)
  rw [inputRow, inputRow, readBytes_getElem?, readBytes_getElem?, ← hlen]
  split
  · next hp => rw [hrow p hp]
  · rfl

/-- Settles O43: both commands are successes that store the same output. -/
theorem compressReadsOnlyTheRow : Obligations.CompressReadsOnlyTheRow := by
  intro s₁ s₂ t₁ t₂ hcfg hlen hmax hend₁ hend₂ hrow h₁ h₂
  obtain ⟨-, rfl⟩ := exec_compress_in_range hmax hend₁ h₁
  rw [hlen, hcfg] at hmax
  obtain ⟨-, rfl⟩ := exec_compress_in_range hmax hend₂ h₂
  have hout := compressedRow_congr hlen hrow
  refine ⟨BitVec.eq_of_toNat_eq ?_, rfl, fun k hk => ?_⟩
  · rw [compressed_cmpLen, compressed_cmpLen, hout]
  · rw [compressed_cmpLen] at hk
    exact Option.some.inj
      ((readByte_compressed_of_lt hk).symm.trans (hout ▸ readByte_compressed_of_lt (hout ▸ hk)))

end Sys2Proof.Machine
end

section
/-! PROOF. The commands NOP and RESET, and the write to CMD that runs a command (R130 to R132). -/

namespace Sys2Proof.Machine

open Sys2Proof

/-- Settles O11: the cases of R130 are the decoder's own. -/
theorem cmdWriteRunsTheCommand : Obligations.CmdWriteRunsTheCommand := fun _ _ _ h =>
  ⟨step_cmdWrite h, rfl⟩

theorem exec_nop (s : State) : exec .nop s = .next (succeed s) := rfl

theorem exec_reset (s : State) : exec .reset s = .next (s.setRegs Regs.reset) := rfl

/-- Settles O14: NOP is the success report and nothing else. -/
theorem nopReportsSuccess : Obligations.NopReportsSuccess := by
  refine ⟨rfl, fun s => ⟨?_, statusWord_success⟩⟩
  rw [exec_nop, succeed_eq]

/-- Settles O15: RESET replaces the register file by one where every register reads 0. -/
theorem resetClearsEveryRegister : Obligations.ResetClearsEveryRegister :=
  ⟨rfl, decodeCmd_of_illegalFields (w := 0x000001FF#32) (.inl (by decide)), exec_reset,
    regRead_reset, rfl⟩

end Sys2Proof.Machine
end

section
/-! PROOF. The host's accesses that are performed: the registers at the 4-aligned offsets of REG, and the
bytes of the memories inside their capacities (R133 to R135). -/

namespace Sys2Proof.Machine

open Sys2Proof

/-! ## The registers -/

section

variable {off : Nat} (r : Regs) (w : Word)

theorem regReadAt_regOffset (n : RegName) : regReadAt r (regOffset n) = regRead r n := by
  simp only [regReadAt, regAt_regOffset]

theorem regWriteAt_regOffset (n : RegName) : regWriteAt r (regOffset n) w = regWrite r n w := by
  simp only [regWriteAt, regAt_regOffset]

theorem regReadAt_reserved (h : regAt off = none) : regReadAt r off = 0 := by
  simp only [regReadAt, h]

theorem regWriteAt_reserved (h : regAt off = none) : regWriteAt r off w = r := by
  simp only [regWriteAt, h]

/-- A reserved offset is none of those R11 lists. -/
theorem ne_of_reserved (h : regAt off = none) :
    off ≠ 0x00 ∧ off ≠ 0x04 ∧ off ≠ 0x08 ∧ off ≠ 0x0C ∧ off ≠ 0x10 ∧ off ≠ 0x14 ∧ off ≠ 0x18 ∧
      off ≠ 0x1C ∧ off ≠ 0x20 ∧ off ≠ 0x24 ∧ off ≠ 0x28 ∧ off ≠ 0x2C ∧ off ≠ 0x30 ∧ off ≠ 0x34 :=
  have hne := regAt_eq_none.mp h
  ⟨hne .cmd, hne .status, hne .imgW, hne .imgH, hne .rasterW, hne .srcOff, hne .rowLen, hne .stride,
    hne .outH, hne .bufLen, hne .cmpLen, hne .path, hne .errExpect, hne .errActual⟩

end

/-- Settles O48: the offset is a register's, and the word is how that register reads, or it is reserved. -/
theorem hostRegisterRead : Obligations.HostRegisterRead := by
  intro s off rest h hlt hal
  rw [step_done h (readReg_of_aligned hlt hal _)]
  cases hat : regAt off with
  | some n =>
    obtain rfl := regAt_eq_some.mp hat
    rw [regReadAt_regOffset]
    cases n <;> rfl
  | none =>
    rw [regReadAt_reserved _ hat]
    simp only [ne_of_reserved hat, if_false]
    rfl

/-- Settles O49: a write to CMD is its command; any other offset is a register's, and the register takes
the low bits of the word or ignores it, or it is reserved. -/
theorem hostRegisterWrite : Obligations.HostRegisterWrite := by
  intro s off w rest h hlt hal
  by_cases h0 : off = 0
  · subst h0
    exact step_cmdWrite h
  rw [step_done h (writeReg_of_aligned hlt hal h0 w _), if_neg h0]
  cases hat : regAt off with
  | some n =>
    obtain rfl := regAt_eq_some.mp hat
    rw [regWriteAt_regOffset]
    cases n <;> rfl
  | none =>
    rw [regWriteAt_reserved _ _ hat]
    simp only [ne_of_reserved hat, if_false]
    rfl

/-! ## The memories -/

variable {s : State} {m : MemId} {a : Nat}

theorem writeMem_inside (hm : m ≠ .cb) (ha : a < s.cfg.capacity m) (b : Byte) :
    writeMem m a b s = .done (s.storeBytes m a [b]) := by
  simp only [writeMem, if_neg hm, checkMem_eq_none.mpr ha]

theorem readMem_inside (ha : a < s.cfg.capacity m) :
    readMem m a s = .done (s.addReply (.byte (readByte s m a))) := by
  simp only [readMem, checkMem_eq_none.mpr ha]

/-- A store outside CB changes no part of the machine but IM and RB. -/
theorem storeBytes_frame (hm : m ≠ .cb) (s : State) (a : Nat) (bs : List Byte) :
    s.storeBytes m a bs =
      { s with im := (s.storeBytes m a bs).im, rb := (s.storeBytes m a bs).rb } := by
  cases m with
  | im => rfl
  | rb => rfl
  | cb => exact absurd rfl hm

theorem readByte_storeByte_same (s : State) (m : MemId) (a : Nat) (b : Byte) :
    readByte (s.storeBytes m a [b]) m a = b := by
  simp [readByte_storeBytes]

theorem readByte_storeByte_other {m' : MemId} {a' : Nat} (h : (m', a') ≠ (m, a)) (s : State)
    (b : Byte) : readByte (s.storeBytes m a [b]) m' a' = readByte s m' a' := by
  rw [readByte_storeBytes, if_neg]
  rintro ⟨rfl, hle, hlt⟩
  obtain rfl : a' = a := Nat.le_antisymm (Nat.le_of_lt_succ hlt) hle
  exact h rfl

/-- Settles O50: a write stores one byte, a read replies the byte the machine reads there, and the checks
refuse the rest. -/
theorem hostMemoryAccess : Obligations.HostMemoryAccess := by
  refine fun s m a rest => ⟨fun b h hm ha => ?_, fun h ha => ?_, fun b h ha => ?_, fun h ha => ?_,
    rfl, rfl, rfl⟩
  · exact ⟨_, step_done h (writeMem_inside (s := { s with pending := rest }) hm ha b),
      storeBytes_frame hm { s with pending := rest } a [b], readByte_storeByte_same _ m a b,
      fun m' a' hne => readByte_storeByte_other hne _ b⟩
  · exact ⟨_, step_done h (readMem_inside ha), fun x hx => readByte_of_lookup_some hx⟩
  · exact step_refused h (writeMem_refuses (s := { s with pending := rest }) ha b)
  · exact step_refused h (readMem_refuses (s := { s with pending := rest }) ha)

end Sys2Proof.Machine
end

section
/-! PROOF. The errors of RASTERIZE and COMPRESS: when each is raised, and what it leaves (R141 to
R147). -/

namespace Sys2Proof.Machine

open Sys2Proof

variable {s t : State} {i : Instr} {o : Orientation}

/-! ## An error has no partial effect -/

theorem raiseError_frame (e : Error) (s : State) :
    raiseError e s =
      { s with regs := { s.regs with
          status := (raiseError e s).regs.status, errExpect := (raiseError e s).regs.errExpect,
          errActualW := (raiseError e s).regs.errActualW,
          errActualH := (raiseError e s).regs.errActualH } } := by
  cases e <;> rfl

/-- A command that ends with ERR = 1 has raised an error and done nothing else: every other outcome of a
command writes ERR = 0. -/
theorem exec_command_failure (hi : i.isCommand = true) (h : exec i s = .next t)
    (herr : t.regs.status.err = true) : ∃ e, t = raiseError e s := by
  rcases exec_cases h with ⟨-, rfl⟩ | ⟨-, -, -, e, rfl, -, -⟩ | ⟨-, o, -, -, rfl⟩ | ⟨-, -, -, rfl⟩ |
    ⟨-, rfl⟩ | ⟨hgroup, -⟩
  · cases herr
  · exact ⟨e, rfl⟩
  · cases herr
  · cases herr
  · cases herr
  · cases hi.symm.trans hgroup

/-- Settles O20: the command raised an error, which writes STATUS and the report registers. -/
theorem errorsArePrecise : Obligations.ErrorsArePrecise := by
  intro i s t hi h herr
  obtain ⟨e, rfl⟩ := exec_command_failure hi h herr
  exact raiseError_frame e s

/-! ## RASTERIZE -/

theorem orientation_of_width {w rw : Nat} (hw : w = rw) (h : Nat) :
    orientation w h rw = some .flip := if_pos hw

theorem orientation_of_height {w h rw : Nat} (hw : w ≠ rw) (hh : h = rw) :
    orientation w h rw = some .transpose := (if_neg hw).trans (if_pos hh)

theorem overCapacity_eq_true {c : Config} {w h ow oh : Nat} :
    overCapacity c w h ow oh = true ↔ w * h > c.imCap ∨ rowStride ow * oh > c.rbCap := by
  simp [overCapacity]

theorem exec_rasterize_capacity
    (ho : orientation s.regs.imgW.toNat s.regs.imgH.toNat s.regs.rasterW.toNat = some o)
    (hover : s.regs.imgW.toNat * s.regs.imgH.toNat > s.cfg.imCap ∨
      rowStride s.regs.rasterW.toNat * s.outHeight o > s.cfg.rbCap) :
    exec .rasterize s = .next (raiseError .capacity s) := by
  have hc := overCapacity_eq_true.mpr hover
  rw [← orientedWidth_eq ho] at hc
  exact (execRasterize_of_some ho).trans (congrArg _ (if_pos hc))

/-- Settles O24: on each path the orientation of R81 is the one the hypothesis describes. -/
theorem rasterizeCapacity : Obligations.RasterizeCapacity := by
  rintro s oh (⟨hw, rfl⟩ | ⟨hw, hh, rfl⟩) hover
  · exact exec_rasterize_capacity (orientation_of_width (congrArg _ hw) _) hover
  · exact exec_rasterize_capacity
      (orientation_of_height (mt BitVec.eq_of_toNat_eq hw) (congrArg _ hh)) hover

theorem exec_rasterize_dimMismatch (hw : s.regs.imgW ≠ s.regs.rasterW)
    (hh : s.regs.imgH ≠ s.regs.rasterW) :
    exec .rasterize s =
      .next (raiseError (.dimMismatch s.regs.rasterW s.regs.imgW s.regs.imgH) s) :=
  execRasterize_of_none (orientation_eq_none.mpr
    ⟨mt BitVec.eq_of_toNat_eq hw, mt BitVec.eq_of_toNat_eq hh⟩)

/-- Settles O23: the report registers read back the sizes: ERR_ACTUAL is the height appended to the
width (R26). -/
theorem rasterizeDimMismatch : Obligations.RasterizeDimMismatch := fun _ hw hh =>
  ⟨_, exec_rasterize_dimMismatch hw hh, rfl, rfl, BitVec.extractLsb'_append_eq_right,
    BitVec.extractLsb'_append_eq_left⟩

/-! ## COMPRESS -/

theorem outOfRange_eq_true {c : Config} {off n : Nat} :
    outOfRange c off n = true ↔ c.rowMax < n ∨ c.rbCap < off + n := by
  simp [outOfRange]

theorem exec_compress_range (h : s.cfg.rowMax < s.regs.rowLen.toNat ∨
      s.cfg.rbCap < s.regs.srcOff.toNat + s.regs.rowLen.toNat) :
    exec .compress s = .next (raiseError .range s) :=
  if_pos (outOfRange_eq_true.mpr h)

theorem inputRow_of_empty (hlen : s.regs.rowLen = 0) : inputRow s = [] := by
  rw [← List.length_eq_zero_iff, inputRow_length, hlen]
  rfl

theorem Memory.store_zero_nil (m : Memory) : Memory.store m 0 [] = m := by
  simp [Memory.store, cellsAt]

theorem writeCompressed_nil (s : State) :
    writeCompressed [] s =
      { s with regs := { s.regs with status := Status.success, cmpLen := 0 } } := by
  have hcb : s.storeBytes .cb 0 [] = s :=
    congrArg (s.setMem .cb) (Memory.store_zero_nil s.cb)
  rw [writeCompressed, hcb]
  rfl

/-- The empty input anywhere up to the end of RB succeeds in every configuration: its output is empty, so
nothing is stored in CB (R113, R144). -/
theorem exec_compress_empty (hlen : s.regs.rowLen = 0) (hoff : s.regs.srcOff.toNat ≤ s.cfg.rbCap) :
    exec .compress s =
      .next { s with regs := { s.regs with status := Status.success, cmpLen := 0 } } := by
  have hrange : outOfRange s.cfg s.regs.srcOff.toNat s.regs.rowLen.toNat = false := by
    rw [hlen]
    exact outOfRange_eq_false.mpr ⟨Nat.zero_le _, hoff⟩
  have hout : compressBytes (inputRow s) = [] := by rw [inputRow_of_empty hlen]; rfl
  calc exec .compress s
    _ = .next (writeCompressed (compressBytes (inputRow s)) s) :=
      execCompress_of_fits hrange (hout ▸ Nat.zero_le s.cfg.cbCap)
    _ = .next (writeCompressed [] s) := by rw [hout]
    _ = _ := congrArg _ (writeCompressed_nil s)

/-- Settles O32: the empty input at the very end of RB reaches no byte of it. -/
theorem compressRange : Obligations.CompressRange := fun _ =>
  ⟨exec_compress_range, fun hlen hoff => exec_compress_empty hlen hoff.le,
    fun _ hoff => exec_compress_range (.inr (Nat.lt_add_right _ hoff))⟩

end Sys2Proof.Machine
end

section
/-! PROOF. The two resets, and the commands right after either (R160). -/

namespace Sys2Proof.Machine

open Sys2Proof

variable {s : State} {i : Instr}

/-- With every register at its reset value a command answers a next state under any parameters, also ones
R6 does not allow: ROW_LEN is 0, so COMPRESS cannot overrun CB (log 8). -/
theorem exec_command_of_reset_regs (hi : i.isCommand = true) (hregs : s.regs = Regs.reset) :
    ∃ t, exec i s = .next t := by
  cases i with
  | nop => exact ⟨_, exec_nop s⟩
  | rasterize => exact execRasterize_next s
  | compress =>
    have hlen : s.regs.rowLen = 0 := by rw [hregs]; rfl
    have hoff : s.regs.srcOff.toNat ≤ s.cfg.rbCap := by rw [hregs]; exact Nat.zero_le _
    exact ⟨_, exec_compress_empty hlen hoff⟩
  | reset => exact ⟨_, exec_reset s⟩
  | illegalCommand op zero => exact ⟨_, exec_illegalCommand op zero s⟩
  | literal | reserved80 | repeatRun => cases hi

/-- Settles O9: a hardware reset is the event's own step, and after either reset all a command needs is the
registers' reset values, whatever the memories hold. -/
theorem theTwoResets : Obligations.TheTwoResets := fun s =>
  ⟨fun _ h => step_hardwareReset h,
    lookup_hardwareReset s,
    exec_reset s,
    regRead_reset,
    fun _ hi _ _ _ _ => exec_command_of_reset_regs hi rfl⟩

end Sys2Proof.Machine
end
